-- ==== Sys2Proof/Word.lean ====
section
/-! DEFINITION. The word types of the block (00_scope.md R6, R12): a 64-bit state word, a byte, the 67-bit
command word, the 65-bit response word, and an ordered sequence of eight bytes. -/

namespace Sys2Proof

/-- `Bits64`: the width of `STATE`, of a seed, of a bound, of a digest (R6). -/
abbrev Word := BitVec 64

/-- `Byte = Bits8` (R12). -/
abbrev Byte := BitVec 8

/-- The 67-bit command word `{op[2:0], arg[63:0]}` (30_encoding.md R50). -/
abbrev CommandWord := BitVec 67

/-- The 65-bit response word `{err, data[63:0]}` (30_encoding.md R51). -/
abbrev ResponseWord := BitVec 65

/-- `Byte^8`: an ordered sequence of eight bytes, the first one `b0` (00_scope.md R7). -/
structure Bytes8 where
  b0 : Byte
  b1 : Byte
  b2 : Byte
  b3 : Byte
  b4 : Byte
  b5 : Byte
  b6 : Byte
  b7 : Byte
deriving DecidableEq, Repr

/-- The eight bytes in order. -/
def Bytes8.toList (b : Bytes8) : List Byte :=
  [b.b0, b.b1, b.b2, b.b3, b.b4, b.b5, b.b6, b.b7]

end Sys2Proof
end

