-- ==== Sys2Proof/Config.lean ====
section
/-! DEFINITION. The two open parameters of the block (00_scope.md R7, R8, R11) and no other: the hash function
`HASH` and the default seed `RNG_SEED`. Both are constants with no body, so that a claim about the machine is true
for every value of them (92_eei_decisions.md D2, D4; assumption log entries 1 and 2). -/

namespace Sys2Proof

/-- The parameter `HASH` as a record (R7). The accumulator is a vector of `HCTX_BITS` bits. Nothing is assumed of
the operations but that they are total functions of their written arguments. -/
structure Hash where
  /-- `HCTX_BITS`, the width of the accumulator. -/
  bits : Nat
  /-- `H_INIT`, a fresh hash accumulator. -/
  init : BitVec bits
  /-- `H_ABSORB`: feed eight bytes, in order. -/
  absorb : BitVec bits → Bytes8 → BitVec bits
  /-- `H_FINISH`: the accumulator to keep and the digest. -/
  finish : BitVec bits → BitVec bits × Word

/-- `HashCtx`: the type of the accumulator (R7, 10_state.md R22). -/
abbrev Hash.Ctx (H : Hash) : Type := BitVec H.bits

/-- The width of this hardware's accumulator: open (R7). -/
opaque Config.hctxBits : Nat

/-- `H_INIT` of this hardware: open (R7). -/
opaque Config.hInit : BitVec Config.hctxBits

/-- `H_ABSORB` of this hardware: open (R7). -/
opaque Config.hAbsorb : BitVec Config.hctxBits → Bytes8 → BitVec Config.hctxBits

/-- `H_FINISH` of this hardware: open (R7). -/
opaque Config.hFinish : BitVec Config.hctxBits → BitVec Config.hctxBits × Word

/-- This hardware's `HASH`: the four open constants put together. -/
def Config.hash : Hash :=
  { bits := Config.hctxBits, init := Config.hInit, absorb := Config.hAbsorb, finish := Config.hFinish }

/-- `RNG_SEED`, the default seed: open (R8). No rule gives it a value. -/
opaque Config.rngSeed : Word

end Sys2Proof
end

