-- ==== Sys2Proof/Machine/State.lean ====
section
/-! DEFINITION. The state of the machine as plain data (10_state.md R20 to R23, R33; 44_sequencer.md R125), why a
step can stop, and the state after reset. -/

namespace Sys2Proof.Machine

/-- The register `OP`: the command in progress (10_state.md R23). -/
inductive PullOp where
  /-- `BYTE`, a one-byte pull answered by its byte. -/
  | byte
  /-- `BOOL`, a one-byte pull answered by its parity. -/
  | bool
  /-- `U64`, an eight-byte pull answered whole. -/
  | u64
  /-- `U64MAX`, eight-byte draws until one is at most the bound. -/
  | u64Max
deriving DecidableEq, Repr

/-- The sequencer: the sum-type reading of `PHASE`, `OP`, `CNT`, `ACC`, `MAXR`, `RSP` that 10_state.md R23 and
44_sequencer.md R125 give. In `Idle` the other registers are don't-care and have no value (assumption log entry 4). -/
inductive Sequencer where
  /-- `PHASE = Idle`. -/
  | idle
  /-- `PHASE = Busy`: `OP`, `CNT` (1 to 8), `ACC`, `MAXR`. -/
  | busy (op : PullOp) (cnt : Nat) (acc : Word) (maxr : Word)
  /-- `PHASE = Resp`: `RSP`, the response being offered. -/
  | resp (data : Word) (err : Bool)
deriving DecidableEq, Repr

/-- A configuration `(STATE, HCTX, SEQ)` of a block built with the hash `H` (44_sequencer.md R125). -/
structure Configuration (H : Hash) where
  /-- `STATE` (10_state.md R21). -/
  state : Word
  /-- `HCTX` (10_state.md R22). -/
  hctx : H.Ctx
  /-- `SEQ` (10_state.md R23). -/
  seq : Sequencer
deriving DecidableEq, Repr

/-- The pair (`STATE`, `HCTX`), the whole architectural state of a block built with the hash `H`
(10_state.md R20). -/
abbrev Gen (H : Hash) : Type := Word × H.Ctx

/-- What the host drives on the input ports during one step (10_state.md R31). -/
structure PortIn where
  /-- `rst`. -/
  rst : Bool
  /-- `cmd_valid`. -/
  cmdValid : Bool
  /-- `cmd`; read only when `cmdValid` holds. -/
  cmd : CommandWord
  /-- `rsp_ready`. -/
  rspReady : Bool
deriving DecidableEq, Repr

/-- The four kinds of event of 44_sequencer.md R126, and the step in which none happens. -/
inductive Event where
  | accept (w : CommandWord)
  | tick
  | deliver
  | reset
  | none
deriving DecidableEq, Repr

/-- The machine: the configuration of the block, and what the host will drive on its input ports at the coming
steps, oldest first (the model's own field: the spec calls these inputs of the step, 10_state.md R32; assumption
log entry 3). -/
structure State extends Configuration Config.hash where
  inputs : List PortIn
deriving DecidableEq, Repr

/-- Why the machine stops with a fault: never. No defined command can fault (60_exceptions.md R152), the one
exception the block has is a next state (R156), and a hang is an infinite run (R164). So there is no constructor,
and nothing raises one (safe). -/
inductive Fault
deriving DecidableEq, Repr

/-- Why an instruction has no meaning. -/
inductive Refusal where
  /-- An instruction not modelled, by its mnemonic. Raised by an arm of `exec` without a meaning; there is none
  (safe). -/
  | notModelled (mnemonic : String)
deriving DecidableEq, Repr

/-- The machine right after reset: `STATE = RNG_SEED`, `HCTX = H_INIT`, `SEQ = Idle` (10_state.md R33,
70_reset_and_hazards.md R171). The host drives nothing (assumption log entry 3). -/
def State.reset : State :=
  { state := Config.rngSeed, hctx := Config.hash.init, seq := .idle, inputs := [] }

end Sys2Proof.Machine
end

