-- ==== Sys2Proof/Machine/Operands.lean ====
section
/-! DEFINITION. The datapath functions on words and bytes: the byte order of the feed, the fold, the packing
(20_memory.md R41 to R44, 41_core_step.md R81, 42_byte_extraction.md R91, R92), the leading-zero count and the mask
(43_rejection_selector.md R110, R111), and the response word (30_encoding.md R51). -/

namespace Sys2Proof.Machine

/-- `BE8`: the bytes of a word, most significant first (20_memory.md R41). -/
def be8 (v : Word) : Bytes8 :=
  { b0 := v.extractLsb' 56 8, b1 := v.extractLsb' 48 8, b2 := v.extractLsb' 40 8, b3 := v.extractLsb' 32 8,
    b4 := v.extractLsb' 24 8, b5 := v.extractLsb' 16 8, b6 := v.extractLsb' 8 8, b7 := v.extractLsb' 0 8 }

/-- The exclusive-or of eight bytes (20_memory.md R42). -/
def xorBytes (b : Bytes8) : Byte :=
  b.b0 ^^^ b.b1 ^^^ b.b2 ^^^ b.b3 ^^^ b.b4 ^^^ b.b5 ^^^ b.b6 ^^^ b.b7

/-- `FOLD8`: the XOR fold of a word to one byte (41_core_step.md R81). -/
def fold8 (v : Word) : Byte := xorBytes (be8 v)

/-- `zext_64` of a byte (00_scope.md R12, 20_memory.md R44). -/
def zext64 (b : Byte) : Word := b.setWidth 64

/-- One packing step: `(acc << 8) | zext_64(b)`, a truncating shift (42_byte_extraction.md R91,
44_sequencer.md R129). -/
def shiftIn (acc : Word) (b : Byte) : Word := (acc <<< 8) ||| zext64 b

/-- `PACK8`: the concatenation of eight bytes, the first in bits 63:56 (42_byte_extraction.md R92). -/
def pack8 (b : Bytes8) : Word :=
  b.b0 ++ b.b1 ++ b.b2 ++ b.b3 ++ b.b4 ++ b.b5 ++ b.b6 ++ b.b7

/-- The number of consecutive 0 bits of `v` from bit `k - 1` down (43_rejection_selector.md R110). -/
def zerosBelow (v : Word) : Nat → Nat
  | 0 => 0
  | k + 1 => if v.getLsbD k then 0 else zerosBelow v k + 1

/-- `CLZ64`: the leading-zero count, 64 at zero (43_rejection_selector.md R110). -/
def clz64 (v : Word) : Nat := zerosBelow v 64

/-- `MASK`: `2^(64 - CLZ64(max)) - 1` over the integers, which fits 64 bits (43_rejection_selector.md R111 to R113). -/
def mask (max : Word) : Word := BitVec.ofNat 64 (2 ^ (64 - clz64 max) - 1)

/-- The response word `{err, data}` (30_encoding.md R51). -/
def responseWord (data : Word) (err : Bool) : ResponseWord := BitVec.ofBool err ++ data

end Sys2Proof.Machine
end

