-- ==== Sys2Proof/Machine/Flags.lean ====
section
/-! DEFINITION. The block has no flag and no condition code (10_state.md R26). This file holds the only two
conditions its datapath computes; each is consumed inside the command that computes it and is kept nowhere. -/

namespace Sys2Proof.Machine

/-- The parity test of `NEXT_BOOL`: bit 0 of the pulled byte is 0 (42_byte_extraction.md R93, 44_sequencer.md R130).
It is taken on the low bit of the shift register, which holds the byte zero-extended. -/
def isEven (acc : Word) : Bool := !acc.getLsbD 0

/-- The comparison of the rejection selector: unsigned, the bound inclusive (43_rejection_selector.md R115). -/
def accepts (v max : Word) : Bool := decide (v ≤ max)

end Sys2Proof.Machine
end

