-- ==== Sys2Proof/Machine/Ops.lean ====
section
/-! DEFINITION. The shared operations on a configuration: the primitive STEP (41_core_step.md R80), construction
(40_construction.md R70, R71), the start of a pull (44_sequencer.md R128), taking the exception `IllegalCmd` and
returning from it (60_exceptions.md R156, R157), the delivery of a response (44_sequencer.md R132) and reset
(70_reset_and_hazards.md R171). All are functions of the parameter `HASH` (93_implementation_defined.md U1). -/

namespace Sys2Proof.Machine

/-- `STEP`: absorb the bytes of the current state, finalise, keep the accumulator that finalising returns, make the
digest the new state, and fold the NEW state to a byte (41_core_step.md R80, R82, R85). -/
def transition (H : Hash) (g : Gen H) : Gen H × Byte :=
  let c1 := H.absorb g.2 (be8 g.1)
  let r := H.finish c1
  ((r.2, r.1), fold8 r.2)

/-- The pair (`STATE`, `HCTX`) of a configuration (10_state.md R20). -/
def Configuration.gen {H : Hash} (c : Configuration H) : Gen H := (c.state, c.hctx)

/-- The configuration with another (`STATE`, `HCTX`). -/
def Configuration.withGen {H : Hash} (c : Configuration H) (g : Gen H) : Configuration H :=
  { c with state := g.1, hctx := g.2 }

/-- Place a response word in `RSP` and offer it: `respond(data, err)` (00_scope.md R13). -/
def Configuration.respond {H : Hash} (c : Configuration H) (data : Word) (err : Bool) : Configuration H :=
  { c with seq := .resp data err }

/-- Construct with a seed: `STATE <- seed`, `HCTX <- H_INIT`, respond `{0, 0}` (40_construction.md R70, R71). -/
def Configuration.construct {H : Hash} (seed : Word) (c : Configuration H) : Configuration H :=
  (c.withGen (seed, H.init)).respond 0 false

/-- Start a pull: no transition yet, the shift register cleared (44_sequencer.md R128). -/
def Configuration.beginPull {H : Hash} (op : PullOp) (cnt : Nat) (maxr : Word) (c : Configuration H) : Configuration H :=
  { c with seq := .busy op cnt 0 maxr }

/-- TAKING THE EXCEPTION `IllegalCmd`: the sequencer goes from Idle to `Resp(0, 1)`, nothing is saved, `STATE` and
`HCTX` are untouched, and the offending `op` is latched nowhere (60_exceptions.md R150, R156, 30_encoding.md R54). -/
def Configuration.illegalCmd {H : Hash} (c : Configuration H) : Configuration H := c.respond 0 true

/-- The delivery of a response: the sequencer returns to Idle and nothing else changes (44_sequencer.md R132). It is
also the RETURN from `IllegalCmd`: there is no return command and the error is not sticky (60_exceptions.md R157). -/
def Configuration.deliver {H : Hash} (c : Configuration H) : Configuration H := { c with seq := .idle }

/-- The configuration that reset gives (44_sequencer.md R133, 70_reset_and_hazards.md R171). -/
def Configuration.afterReset (H : Hash) (rngSeed : Word) : Configuration H :=
  { state := rngSeed, hctx := H.init, seq := .idle }

/-- Change the configuration of the machine and leave the host's inputs. -/
def State.mapConfiguration (s : State) (f : Configuration Config.hash → Configuration Config.hash) : State :=
  { s with toConfiguration := f s.toConfiguration }

/-- A command offered to the block: it is accepted, with its effect `f`, only when the sequencer is Idle; in Busy
and Resp it is not taken, not queued and not remembered (44_sequencer.md R127). -/
def State.whenReady (s : State) (f : Configuration Config.hash → Configuration Config.hash) :
    Host.Outcome State Fault Refusal :=
  match s.seq with
  | .idle => .next (s.mapConfiguration f)
  | .busy _ _ _ _ => .next s
  | .resp _ _ => .next s

end Sys2Proof.Machine
end

