-- ==== Sys2Proof/Machine/ByteExtraction.lean ====
section
/-! DEFINITION. The commands that pull bytes and reshape them (42_byte_extraction.md; acceptance: 44_sequencer.md
R128). The transitions themselves are the ticks that follow (R129). -/

namespace Sys2Proof.Machine

/-- `NEXT_BYTE`: a one-byte pull (42_byte_extraction.md R90). -/
def execNextByte (s : State) : Host.Outcome State Fault Refusal :=
  s.whenReady (.beginPull .byte 1 0)

/-- `NEXT_U64`: an eight-byte pull (42_byte_extraction.md R91). -/
def execNextU64 (s : State) : Host.Outcome State Fault Refusal :=
  s.whenReady (.beginPull .u64 8 0)

/-- `NEXT_BOOL`: a one-byte pull reduced to its parity (42_byte_extraction.md R93). -/
def execNextBool (s : State) : Host.Outcome State Fault Refusal :=
  s.whenReady (.beginPull .bool 1 0)

end Sys2Proof.Machine
end

