-- ==== Sys2Proof/Machine/Construction.lean ====
section
/-! DEFINITION. The construction commands (40_construction.md; acceptance: 44_sequencer.md R128). -/

namespace Sys2Proof.Machine

/-- `NEW_DEFAULT`: construct with `RNG_SEED` (40_construction.md R70). -/
def execNewDefault (s : State) : Host.Outcome State Fault Refusal :=
  s.whenReady (.construct Config.rngSeed)

/-- `NEW_WITH_SEED seed`: construct with the seed as it stands, no validation (40_construction.md R71, R73). -/
def execNewWithSeed (seed : Word) (s : State) : Host.Outcome State Fault Refusal :=
  s.whenReady (.construct seed)

end Sys2Proof.Machine
end

