-- ==== Sys2Proof/Machine/RejectionSelector.lean ====
section
/-! DEFINITION. Bounded sampling by rejection (43_rejection_selector.md; acceptance: 44_sequencer.md R128). The draws
and the retry are the ticks that follow (R129 to R131). -/

namespace Sys2Proof.Machine

/-- `NEXT_U64_MAX max`: the bound is latched at acceptance and constant for the whole command
(43_rejection_selector.md R116, R120). -/
def execNextU64Max (max : Word) (s : State) : Host.Outcome State Fault Refusal :=
  s.whenReady (.beginPull .u64Max 8 max)

end Sys2Proof.Machine
end

