-- ==== Sys2Proof/Machine/Reserved.lean ====
section
/-! DEFINITION. The two reserved opcodes: accepted like any other word, they take the exception `IllegalCmd`
(30_encoding.md R54, 60_exceptions.md R150, R156). -/

namespace Sys2Proof.Machine

/-- `op = 6` (30_encoding.md R54). -/
def execReserved6 (s : State) : Host.Outcome State Fault Refusal :=
  s.whenReady .illegalCmd

/-- `op = 7` (30_encoding.md R54). -/
def execReserved7 (s : State) : Host.Outcome State Fault Refusal :=
  s.whenReady .illegalCmd

end Sys2Proof.Machine
end

