-- ==== Sys2Proof/Syntax.lean ====
section
/-! DEFINITION. The commands of the block, one constructor for each row of spec/opcode_table.json
(30_encoding.md R52, R61). The operands are the two the source gives: a seed and an inclusive bound (R50, R53). -/

namespace Sys2Proof

/-- A decoded command word. An operand-free command keeps no trace of its ignored `arg` (R53, R61). -/
inductive Instr where
  /-- `NEW_DEFAULT`, op 0 (40_construction.md R70). -/
  | newDefault
  /-- `NEW_WITH_SEED seed`, op 1 (40_construction.md R71). -/
  | newWithSeed (seed : Word)
  /-- `NEXT_BYTE`, op 2 (42_byte_extraction.md R90). -/
  | nextByte
  /-- `NEXT_U64`, op 3 (42_byte_extraction.md R91). -/
  | nextU64
  /-- `NEXT_U64_MAX max`, op 4 (43_rejection_selector.md R116). -/
  | nextU64Max (max : Word)
  /-- `NEXT_BOOL`, op 5 (42_byte_extraction.md R93). -/
  | nextBool
  /-- `RESERVED_6`, op 6 (30_encoding.md R54). -/
  | reserved6
  /-- `RESERVED_7`, op 7 (30_encoding.md R54). -/
  | reserved7
deriving DecidableEq, Repr

end Sys2Proof
end

