-- ==== Sys2Proof/Machine/Dispatch.lean ====
section
/-! DEFINITION. One arm per command, each a direct call of its meaning: the effect of `accept` by the decoded word
(44_sequencer.md R128). -/

namespace Sys2Proof.Machine

def exec (i : Instr) (s : State) : Host.Outcome State Fault Refusal :=
  match i with
  | .newDefault => Sys2Proof.Machine.execNewDefault s
  | .newWithSeed seed => Sys2Proof.Machine.execNewWithSeed seed s
  | .nextByte => Sys2Proof.Machine.execNextByte s
  | .nextU64 => Sys2Proof.Machine.execNextU64 s
  | .nextU64Max max => Sys2Proof.Machine.execNextU64Max max s
  | .nextBool => Sys2Proof.Machine.execNextBool s
  | .reserved6 => Sys2Proof.Machine.execReserved6 s
  | .reserved7 => Sys2Proof.Machine.execReserved7 s

end Sys2Proof.Machine
end

