-- ==== Sys2Proof/WellFormed.lean ====
section
/-! DEFINITION. What is checked before a command is one. A decoded command has nothing left to check: every
64-bit operand is legal and every opcode has a meaning (30_encoding.md R53, R55). A command line as a program
writes it (R59) carries an unbounded literal, and that one must fit its 64-bit field. -/

namespace Sys2Proof

/-- Every decoded command is well-formed: 'all uint64 seeds and bounds are valid' (R53), and the two reserved
opcodes are accepted like any other (R54). -/
def Instr.wellFormed (i : Instr) : Bool :=
  match i with
  | .newDefault => true
  | .newWithSeed _ => true
  | .nextByte => true
  | .nextU64 => true
  | .nextU64Max _ => true
  | .nextBool => true
  | .reserved6 => true
  | .reserved7 => true

/-- One line of a command stream (30_encoding.md R59), or the one pseudo-command `STREAM n` (R60). Literals are
unsigned numbers of any size. The reserved opcodes have no mnemonic and no line. -/
inductive Line where
  | newDefault
  | newWithSeed (seed : Nat)
  | nextByte
  | nextU64
  | nextU64Max (max : Nat)
  | nextBool
  | stream (n : Nat)
deriving DecidableEq, Repr

/-- A literal fits the 64-bit `arg` field (R50). -/
def literalFits (n : Nat) : Bool := decide (n < 2 ^ 64)

/-- A line is well-formed when its operand, if it has one, fits the field; that a longer literal is refused and not
cut is assumption log entry 11. The count of `STREAM` is no operand of a command and may be any number. -/
def Line.wellFormed (l : Line) : Bool :=
  match l with
  | .newDefault => true
  | .newWithSeed seed => literalFits seed
  | .nextByte => true
  | .nextU64 => true
  | .nextU64Max max => literalFits max
  | .nextBool => true
  | .stream _ => true

end Sys2Proof
end

