-- ==== Sys2Proof/Decode.lean ====
section
/-! DEFINITION. Decoding and encoding of command words (30_encoding.md R50, R52, R53, R61) and the opcode table.
Decoding is total on 67-bit words; a number that does not fit the 67 lines of the port is rejected by name. -/

namespace Sys2Proof

/-- `op = cmd[66:64]` (R50). -/
def opField (w : CommandWord) : BitVec 3 := w.extractLsb' 64 3

/-- `arg = cmd[63:0]`, used exactly as it stands (R50, R53). -/
def argField (w : CommandWord) : Word := w.extractLsb' 0 64

/-- The total decoder of R61, by the opcode map of R52. -/
def decode (w : CommandWord) : Instr :=
  match (opField w).toNat with
  | 0 => .newDefault
  | 1 => .newWithSeed (argField w)
  | 2 => .nextByte
  | 3 => .nextU64
  | 4 => .nextU64Max (argField w)
  | 5 => .nextBool
  | 6 => .reserved6
  | _ => .reserved7

/-- The word `{op, arg}` (R50). -/
def commandWord (op : BitVec 3) (arg : Word) : CommandWord := op ++ arg

/-- The opcode of a command (R52). -/
def Instr.opcode (i : Instr) : BitVec 3 :=
  match i with
  | .newDefault => 0
  | .newWithSeed _ => 1
  | .nextByte => 2
  | .nextU64 => 3
  | .nextU64Max _ => 4
  | .nextBool => 5
  | .reserved6 => 6
  | .reserved7 => 7

/-- The operand a command is encoded with: `arg = 0` where it has none (R59, R61). -/
def Instr.operand (i : Instr) : Word :=
  match i with
  | .newDefault => 0
  | .newWithSeed seed => seed
  | .nextByte => 0
  | .nextU64 => 0
  | .nextU64Max max => max
  | .nextBool => 0
  | .reserved6 => 0
  | .reserved7 => 0

/-- The encoder, a right inverse of `decode` (R61). -/
def encode (i : Instr) : CommandWord := commandWord i.opcode i.operand

/-- A row of the opcode table: `match` and `mask` over the 67-bit word (R52). -/
structure OpcodeRow where
  mnemonic : String
  mask : CommandWord
  pattern : CommandWord
deriving DecidableEq, Repr

/-- The word has the row's opcode. -/
def OpcodeRow.fits (r : OpcodeRow) (w : CommandWord) : Bool := w &&& r.mask == r.pattern

/-- The rows of spec/opcode_table.json: one mask for all, `match = op << 64` (R52). -/
def opcodeTable : List OpcodeRow :=
  [ { mnemonic := "NEW_DEFAULT", mask := 0x70000000000000000, pattern := 0x00000000000000000 },
    { mnemonic := "NEW_WITH_SEED", mask := 0x70000000000000000, pattern := 0x10000000000000000 },
    { mnemonic := "NEXT_BYTE", mask := 0x70000000000000000, pattern := 0x20000000000000000 },
    { mnemonic := "NEXT_U64", mask := 0x70000000000000000, pattern := 0x30000000000000000 },
    { mnemonic := "NEXT_U64_MAX", mask := 0x70000000000000000, pattern := 0x40000000000000000 },
    { mnemonic := "NEXT_BOOL", mask := 0x70000000000000000, pattern := 0x50000000000000000 },
    { mnemonic := "RESERVED_6", mask := 0x70000000000000000, pattern := 0x60000000000000000 },
    { mnemonic := "RESERVED_7", mask := 0x70000000000000000, pattern := 0x70000000000000000 } ]

/-- The mnemonic of a command, as the table spells it. -/
def Instr.mnemonic (i : Instr) : String :=
  match i with
  | .newDefault => "NEW_DEFAULT"
  | .newWithSeed _ => "NEW_WITH_SEED"
  | .nextByte => "NEXT_BYTE"
  | .nextU64 => "NEXT_U64"
  | .nextU64Max _ => "NEXT_U64_MAX"
  | .nextBool => "NEXT_BOOL"
  | .reserved6 => "RESERVED_6"
  | .reserved7 => "RESERVED_7"

/-- Why a number is not a command word. -/
inductive DecodeError where
  /-- Its value needs more than the 67 lines of the port `cmd` (10_state.md R31). Safe: no such word exists. -/
  | tooWide
deriving DecidableEq, Repr

/-- The command word whose bits are the low `nbits` bits of `w`, bit 0 the least significant (assumption log
entry 10). -/
def wordOfTable (nbits w : Nat) : Except DecodeError CommandWord :=
  let v := w % 2 ^ nbits
  if v < 2 ^ 67 then .ok (BitVec.ofNat 67 v) else .error .tooWide

/-- The command the decoder reads from a word numbered as spec/opcode_table.json numbers it. -/
def decodeTableWord (nbits w : Nat) : Option Instr :=
  match wordOfTable nbits w with
  | .ok word => some (decode word)
  | .error .tooWide => none

end Sys2Proof
end

