-- ==== Sys2Proof/Machine/Sequencer.lean ====
section
/-! DEFINITION. The tick of the sequencer (44_sequencer.md R129, R130, R131): one STEP, one packing step, and either
the next byte of the pull, its end, or the retry of a rejected draw. -/

namespace Sys2Proof.Machine

/-- `finish(op, acc', maxr)`, the end of a pull (44_sequencer.md R130). The retry of a rejected draw is the only
backward edge: `acc` is cleared, `maxr` kept, and no count of retries exists (R131, 43_rejection_selector.md R117). -/
def finishPull (op : PullOp) (acc maxr : Word) : Sequencer :=
  match op with
  | .byte => .resp acc false
  | .bool => if isEven acc then .resp 1 false else .resp 0 false
  | .u64 => .resp acc false
  | .u64Max =>
    if accepts (acc &&& mask maxr) maxr then .resp (acc &&& mask maxr) false else .busy .u64Max 8 0 maxr

/-- The sequencer after a tick that has shifted a byte in and left `acc` (44_sequencer.md R129). `CNT` is at least 1
in every state that a run reaches (assumption log entry 4). -/
def advancePull (op : PullOp) (cnt : Nat) (acc maxr : Word) : Sequencer :=
  if cnt > 1 then .busy op (cnt - 1) acc maxr else finishPull op acc maxr

/-- `tick` (44_sequencer.md R129). It is enabled only in Busy (R126); elsewhere nothing changes. -/
def Configuration.tick {H : Hash} (c : Configuration H) : Configuration H :=
  match c.seq with
  | .idle => c
  | .busy op cnt acc maxr =>
    let t := transition H c.gen
    { c.withGen t.1 with seq := advancePull op cnt (shiftIn acc t.2) maxr }
  | .resp _ _ => c

end Sys2Proof.Machine
end

