-- ==== Sys2Proof/Machine/Ports.lean ====
section
/-! DEFINITION. The ports of the block (10_state.md R31): which levels the host drives in a step, which event they
make (44_sequencer.md R126, R127, R132, 60_exceptions.md R155), and the outputs (44_sequencer.md R134,
70_reset_and_hazards.md R170). -/

namespace Sys2Proof.Machine

/-- A host that does nothing: no reset, no command offered, no response taken. -/
def PortIn.quiet : PortIn := { rst := false, cmdValid := false, cmd := 0, rspReady := false }

/-- A host that offers the word `w` and takes no response. -/
def PortIn.offer (w : CommandWord) : PortIn := { rst := false, cmdValid := true, cmd := w, rspReady := false }

/-- A host that takes a response and offers nothing. -/
def PortIn.take : PortIn := { rst := false, cmdValid := false, cmd := 0, rspReady := true }

/-- A host that asserts `rst`. -/
def PortIn.reset : PortIn := { rst := true, cmdValid := false, cmd := 0, rspReady := false }

/-- The levels that offer the word `w` on the command port; a number that is no command word is not offered. -/
def offerTableWord (nbits w : Nat) : PortIn :=
  match wordOfTable nbits w with
  | .ok word => .offer word
  | .error .tooWide => .quiet

/-- The levels of the input ports in this step; a host with no more to drive does nothing (assumption log
entry 3). -/
def State.pins (s : State) : PortIn := s.inputs.headD .quiet

/-- The machine once this step's levels are sampled. A word that is not taken is not remembered
(44_sequencer.md R127). -/
def State.sampled (s : State) : State := { s with inputs := s.inputs.tail }

/-- `PHASE = Idle`. -/
def Sequencer.isIdle (q : Sequencer) : Bool :=
  match q with
  | .idle => true
  | .busy _ _ _ _ => false
  | .resp _ _ => false

/-- `PHASE = Resp`. -/
def Sequencer.isResp (q : Sequencer) : Bool :=
  match q with
  | .idle => false
  | .busy _ _ _ _ => false
  | .resp _ _ => true

/-- The event that these levels make in this phase: reset before all else (60_exceptions.md R155), a handshake where
both sides agree (10_state.md R31), a tick in Busy, and otherwise nothing (44_sequencer.md R126, R137). -/
def eventOf (p : PortIn) (q : Sequencer) : Event :=
  if p.rst then .reset
  else
    match q with
    | .idle => if p.cmdValid then .accept p.cmd else .none
    | .busy _ _ _ _ => .tick
    | .resp _ _ => if p.rspReady then .deliver else .none

/-- The event of this step. -/
def State.event (s : State) : Event := eventOf s.pins s.seq

/-- The `reset` event: the reset configuration, from any configuration (44_sequencer.md R133). -/
def State.resetBlock (s : State) : State := s.mapConfiguration fun _ => .afterReset Config.hash Config.rngSeed

/-- The `tick` event (44_sequencer.md R129). -/
def State.tickBlock (s : State) : State := s.mapConfiguration Configuration.tick

/-- The `deliver` event (44_sequencer.md R132). -/
def State.deliverBlock (s : State) : State := s.mapConfiguration Configuration.deliver

/-- `cmd_ready`: Idle, and `rst` not asserted (44_sequencer.md R134, 70_reset_and_hazards.md R170). -/
def State.cmdReady (s : State) : Bool := !s.pins.rst && s.seq.isIdle

/-- `busy = (PHASE != Idle)` (10_state.md R31). -/
def State.busy (s : State) : Bool := !s.seq.isIdle

/-- `rsp_valid`: Resp, and `rst` not asserted (44_sequencer.md R134, 70_reset_and_hazards.md R170). -/
def State.rspValid (s : State) : Bool := !s.pins.rst && s.seq.isResp

/-- `rsp`: the response word while `rsp_valid` holds; otherwise it is don't-care and has no value (10_state.md R31,
assumption log entry 6). -/
def State.rsp (s : State) : Option ResponseWord :=
  match s.seq with
  | .idle => none
  | .busy _ _ _ _ => none
  | .resp data err => if s.pins.rst then none else some (responseWord data err)

end Sys2Proof.Machine
end

