-- ==== Sys2Proof/Machine/Step.lean ====
section
/-! DEFINITION. One step: the levels of the input ports are sampled, and the event they make takes effect
(44_sequencer.md R126). -/

namespace Sys2Proof.Machine

/-- One step of the machine. An accepted word is decoded and executed (44_sequencer.md R128). -/
def step (s : State) : Host.Outcome State Fault Refusal :=
  match s.event with
  | .reset => .next s.sampled.resetBlock
  | .accept w => exec (decode w) s.sampled
  | .tick => .next s.sampled.tickBlock
  | .deliver => .next s.sampled.deliverBlock
  | .none => .next s.sampled

/-- The machine with an idle sequencer and a host that offers the word `w` in the very next step: the block fetches
nothing, so this stands for the host presenting the command (assumption log entry 3). -/
def State.withFetchWord (s : State) (nbits w : Nat) : State :=
  { s with seq := .idle, inputs := offerTableWord nbits w :: s.inputs.tail }

end Sys2Proof.Machine
end

