-- ==== Sys2Proof/Machine/Assembler.lean ====
section
/-! DEFINITION. The written form of a command stream (30_encoding.md R59) and the pseudo-command `STREAM n` (R60):
a line is read, checked, expanded to commands and encoded; a response is written `-> data` or `-> ERR`. Literals are
decimal or `0x` hexadecimal, with `_` as a separator (00_scope.md R12). Text is a list of characters. What the spec
leaves open about blanks, separators and the case of digits is assumption log entry 11. -/

namespace Sys2Proof.Machine

/-- The commands a line stands for; `STREAM n` is `n` consecutive `NEXT_BYTE` (R60). -/
def expandLine (l : Line) : List Instr :=
  match l with
  | .newDefault => [.newDefault]
  | .newWithSeed seed => [.newWithSeed (BitVec.ofNat 64 seed)]
  | .nextByte => [.nextByte]
  | .nextU64 => [.nextU64]
  | .nextU64Max max => [.nextU64Max (BitVec.ofNat 64 max)]
  | .nextBool => [.nextBool]
  | .stream n => List.replicate n .nextByte

/-- The command words of a well-formed line; a line whose literal does not fit has none
(assumption log entry 11). -/
def assembleLine (l : Line) : Option (List CommandWord) :=
  if l.wellFormed then some ((expandLine l).map encode) else none

/-- The value of a hexadecimal digit. -/
def hexDigit (c : Char) : Option Nat :=
  if 48 ≤ c.toNat && c.toNat ≤ 57 then some (c.toNat - 48)
  else if 65 ≤ c.toNat && c.toNat ≤ 70 then some (c.toNat - 55)
  else if 97 ≤ c.toNat && c.toNat ≤ 102 then some (c.toNat - 87)
  else none

/-- Digits in a base, most significant first, `_` skipped; no digit at all is no number. -/
def readDigits (base : Nat) : List Char → Option Nat → Option Nat
  | [], acc => acc
  | c :: cs, acc =>
    if c == '_' then readDigits base cs acc
    else
      match hexDigit c with
      | some d => if d < base then readDigits base cs (some (acc.getD 0 * base + d)) else none
      | none => none

/-- An unsigned literal: `0x` and hexadecimal digits, or decimal digits (R59). -/
def readLiteral (cs : List Char) : Option Nat :=
  match cs with
  | '0' :: 'x' :: rest => readDigits 16 rest none
  | rest => readDigits 10 rest none

/-- The words of a line, split at spaces; `word` is the word being read, its last character first. -/
def splitWords : List Char → List Char → List (List Char)
  | [], word => if word.isEmpty then [] else [word.reverse]
  | c :: cs, word =>
    if c == ' ' then (if word.isEmpty then splitWords cs [] else word.reverse :: splitWords cs [])
    else splitWords cs (c :: word)

/-- Read one line: an upper-case mnemonic and its literal, if it takes one (R59, R60). -/
def readLine (cs : List Char) : Option Line :=
  match splitWords cs [] with
  | [m] =>
    if m == "NEW_DEFAULT".toList then some .newDefault
    else if m == "NEXT_BYTE".toList then some .nextByte
    else if m == "NEXT_U64".toList then some .nextU64
    else if m == "NEXT_BOOL".toList then some .nextBool
    else none
  | [m, lit] =>
    if m == "NEW_WITH_SEED".toList then (readLiteral lit).map .newWithSeed
    else if m == "NEXT_U64_MAX".toList then (readLiteral lit).map .nextU64Max
    else if m == "STREAM".toList then (readLiteral lit).map .stream
    else none
  | _ => none

/-- A hexadecimal digit as a character. -/
def hexChar (n : Nat) : Char :=
  if n < 10 then Char.ofNat (48 + n) else Char.ofNat (55 + n)

/-- The sixteen hexadecimal digits of a word, most significant first. -/
def hexDigits (v : Word) : List Char :=
  (List.range 16).map fun k => hexChar (v.extractLsb' (60 - 4 * k) 4).toNat

/-- The written form of a response to a line: `-> data` or `-> ERR` (R59). -/
def writeResponse (data : Word) (err : Bool) : List Char :=
  if err then "-> ERR".toList else "-> 0x".toList ++ hexDigits data

end Sys2Proof.Machine
end

