-- ==== Sys2Proof/Machine/OperationLevel.lean ====
section
/-! DEFINITION. The operation level (00_scope.md R15; files 40 to 43): each command as a function from
(`STATE`, `HCTX`) to a new pair and a response, with the number of transitions it performs. `NEXT_U64_MAX` is partial
(43_rejection_selector.md R117): it takes fuel, a number of draws, and running out of fuel is no response
(60_exceptions.md R164). The step function does not use this file; the statements relate it to the sequencer
(44_sequencer.md R135). -/

namespace Sys2Proof.Machine

/-- What an operation ends in: the new (`STATE`, `HCTX`), the response, and the number of transitions. -/
structure OpResult (H : Hash) where
  gen : Gen H
  data : Word
  err : Bool
  ticks : Nat
deriving DecidableEq, Repr

/-- The (`STATE`, `HCTX`) after `n` transitions (41_core_step.md R83). -/
def afterTransitions (H : Hash) : Nat → Gen H → Gen H
  | 0, g => g
  | n + 1, g => afterTransitions H n (transition H g).1

/-- The next `n` bytes of the stream: `byte_1 .. byte_n` of 41_core_step.md R83. -/
def streamBytes (H : Hash) : Nat → Gen H → List Byte
  | 0, _ => []
  | n + 1, g => (transition H g).2 :: streamBytes H n (transition H g).1

/-- The packing loop: `n` times, STEP and `r = (r << 8) | zext_64(b)` (42_byte_extraction.md R91). -/
def pullBytes (H : Hash) : Nat → Gen H → Word → Gen H × Word
  | 0, g, r => (g, r)
  | n + 1, g, r =>
    let t := transition H g
    pullBytes H n t.1 (shiftIn r t.2)

/-- `NEW_WITH_SEED seed`, and with `RNG_SEED` `NEW_DEFAULT` (40_construction.md R70, R71, R72). -/
def opConstruct (H : Hash) (seed : Word) : OpResult H :=
  { gen := (seed, H.init), data := 0, err := false, ticks := 0 }

/-- `NEXT_BYTE` (42_byte_extraction.md R90). -/
def opNextByte (H : Hash) (g : Gen H) : OpResult H :=
  let t := transition H g
  { gen := t.1, data := zext64 t.2, err := false, ticks := 1 }

/-- `NEXT_U64` (42_byte_extraction.md R91). -/
def opNextU64 (H : Hash) (g : Gen H) : OpResult H :=
  let p := pullBytes H 8 g 0
  { gen := p.1, data := p.2, err := false, ticks := 8 }

/-- `NEXT_BOOL` (42_byte_extraction.md R93). -/
def opNextBool (H : Hash) (g : Gen H) : OpResult H :=
  let t := transition H g
  { gen := t.1, data := if t.2.getLsbD 0 then 0 else 1, err := false, ticks := 1 }

/-- One draw of `NEXT_U64_MAX`: its candidate is `r & MASK(max)` (43_rejection_selector.md R114). -/
def opDraw (H : Hash) (max : Word) (g : Gen H) : Gen H × Word :=
  let p := pullBytes H 8 g 0
  (p.1, p.2 &&& mask max)

/-- `NEXT_U64_MAX max` with fuel for so many draws (43_rejection_selector.md R116). -/
def opNextU64Max (H : Hash) (max : Word) : Nat → Gen H → Option (OpResult H)
  | 0, _ => none
  | fuel + 1, g =>
    let d := opDraw H max g
    if accepts d.2 max then some { gen := d.1, data := d.2, err := false, ticks := 8 }
    else (opNextU64Max H max fuel d.1).map fun r => { r with ticks := r.ticks + 8 }

/-- A reserved opcode: `IllegalCmd` (30_encoding.md R54). -/
def opReserved (H : Hash) (g : Gen H) : OpResult H :=
  { gen := g, data := 0, err := true, ticks := 0 }

/-- A command at the operation level; `none` is out of fuel, which only `NEXT_U64_MAX` can be. -/
def operate (H : Hash) (rngSeed : Word) (fuel : Nat) (i : Instr) (g : Gen H) : Option (OpResult H) :=
  match i with
  | .newDefault => some (opConstruct H rngSeed)
  | .newWithSeed seed => some (opConstruct H seed)
  | .nextByte => some (opNextByte H g)
  | .nextU64 => some (opNextU64 H g)
  | .nextU64Max max => opNextU64Max H max fuel g
  | .nextBool => some (opNextBool H g)
  | .reserved6 => some (opReserved H g)
  | .reserved7 => some (opReserved H g)

end Sys2Proof.Machine
end

