-- ==== Sys2Proof/Safety.lean ====
section
/-! DEFINITION. The terms claims are made in: the invariant of the sequencer registers, runs without a reset, the
words a run accepts and the responses it delivers, and the answer the operation level gives to a stream of words. -/

namespace Sys2Proof.Machine

/-- The invariant of the sequencer registers. In Busy, `CNT` is 1 to 8 (10_state.md R23), a one-byte pull has
`CNT = 1` and an empty shift register (44_sequencer.md R128), `ACC` holds no more than the bytes already pulled
(42_byte_extraction.md R91), and `MAXR` is 0 but for `U64MAX` (44_sequencer.md R125). In Resp, an error response
carries no data (60_exceptions.md R150). -/
def Sequencer.wf (q : Sequencer) : Bool :=
  match q with
  | .idle => true
  | .busy op cnt acc maxr =>
    decide (1 ≤ cnt) && decide (cnt ≤ 8) && decide (acc.toNat < 2 ^ (8 * (8 - cnt)))
      && (match op with
          | .byte => decide (cnt = 1) && decide (acc = 0) && decide (maxr = 0)
          | .bool => decide (cnt = 1) && decide (acc = 0) && decide (maxr = 0)
          | .u64 => decide (maxr = 0)
          | .u64Max => true)
  | .resp data err => !err || decide (data = 0)

/-- The invariant of the machine. -/
def State.wf (s : State) : Bool := s.seq.wf

/-- The host asserts no reset in the next `n` steps. -/
def State.noReset (s : State) (n : Nat) : Bool := (s.inputs.take n).all fun p => !p.rst

/-- The machine runs `n` steps from `s` and stands in `t`. -/
def Runs : Nat → State → State → Prop
  | 0, s, t => s = t
  | n + 1, s, t => ∃ u, step s = .next u ∧ Runs n u t

/-- The word the block accepts in this step, if it accepts one. -/
def State.acceptedNow (s : State) : List CommandWord :=
  match s.event with
  | .accept w => [w]
  | .tick => []
  | .deliver => []
  | .reset => []
  | .none => []

/-- The response word the block delivers in this step, if it delivers one. -/
def State.deliveredNow (s : State) : List ResponseWord :=
  match s.event with
  | .accept _ => []
  | .tick => []
  | .deliver => s.rsp.toList
  | .reset => []
  | .none => []

/-- The words accepted in the next `n` steps, in order. -/
def acceptedWords : Nat → State → List CommandWord
  | 0, _ => []
  | n + 1, s =>
    match step s with
    | .next t => s.acceptedNow ++ acceptedWords n t
    | .fault _ => []
    | .refused _ => []

/-- The response words delivered in the next `n` steps, in order. -/
def deliveredWords : Nat → State → List ResponseWord
  | 0, _ => []
  | n + 1, s =>
    match step s with
    | .next t => s.deliveredNow ++ deliveredWords n t
    | .fault _ => []
    | .refused _ => []

/-- The operation level answers a stream of command words, one after another, with these response words and ends in
this (`STATE`, `HCTX`) (20_memory.md R48, 44_sequencer.md R135). -/
inductive Answers (H : Hash) (rngSeed : Word) : Gen H → List CommandWord → List ResponseWord → Gen H → Prop where
  | nil (g : Gen H) : Answers H rngSeed g [] [] g
  | cons (g g' : Gen H) (w : CommandWord) (ws : List CommandWord) (rs : List ResponseWord) (fuel : Nat)
      (r : OpResult H) (first : operate H rngSeed fuel (decode w) g = some r)
      (rest : Answers H rngSeed r.gen ws rs g') :
      Answers H rngSeed g (w :: ws) (responseWord r.data r.err :: rs) g'

/-- A host that takes a response as soon as it is offered: it offers the word of a command and then, for as many
steps as the command has transitions, drives nothing, and takes the response. -/
def hostScript (i : Instr) (ticks : Nat) : List PortIn :=
  .offer (encode i) :: (List.replicate ticks .quiet ++ [.take])

/-- The script of `STREAM n`: `n` consecutive `NEXT_BYTE` (30_encoding.md R60). -/
def streamScript : Nat → List PortIn
  | 0 => []
  | n + 1 => hostScript .nextByte 1 ++ streamScript n

end Sys2Proof.Machine
end

