-- ==== Sys2Proof/Certificates/Slice0/Obligations.lean ====
section
/-! DEFINITION. The statements for the provers. Each docstring names the rule of spec/ a statement formalises. A
statement whose rule the spec itself marks as derived, or that holds a choice of the model, has basis 'derived'. -/

open Sys2Proof Sys2Proof.Machine

namespace Sys2Proof.Claims

/-- The smear form of the mask, which uses only 64-bit operations (43_rejection_selector.md R111). -/
def smear (m0 : Word) : Word :=
  let m1 := m0 ||| (m0 >>> 1)
  let m2 := m1 ||| (m1 >>> 2)
  let m3 := m2 ||| (m2 >>> 4)
  let m4 := m3 ||| (m3 >>> 8)
  let m5 := m4 ||| (m4 >>> 16)
  m5 ||| (m5 >>> 32)

/-- The table of `MASK` that stands under 43_rejection_selector.md R113: bound, leading-zero count, mask. -/
def maskTable : List (Word × Nat × Word) :=
  [ (0x0000000000000000, 64, 0x0000000000000000), (0x0000000000000001, 63, 0x0000000000000001),
    (0x0000000000000002, 62, 0x0000000000000003), (0x0000000000000003, 62, 0x0000000000000003),
    (0x0000000000000004, 61, 0x0000000000000007), (0x0000000000000005, 61, 0x0000000000000007),
    (0x0000000000000007, 61, 0x0000000000000007), (0x0000000000000008, 60, 0x000000000000000F),
    (0x0000000000000064, 57, 0x000000000000007F), (0x00000000000000FF, 56, 0x00000000000000FF),
    (0x0000000000000100, 55, 0x00000000000001FF), (0x00000000000003E8, 54, 0x00000000000003FF),
    (0x00000000FFFFFFFF, 32, 0x00000000FFFFFFFF), (0x0000000100000000, 31, 0x00000001FFFFFFFF),
    (0x0123456789ABCDEF, 7, 0x01FFFFFFFFFFFFFF), (0x7FFFFFFFFFFFFFFF, 1, 0x7FFFFFFFFFFFFFFF),
    (0x8000000000000000, 0, 0xFFFFFFFFFFFFFFFF), (0x8000000000000001, 0, 0xFFFFFFFFFFFFFFFF),
    (0xFFFFFFFFFFFFFFFF, 0, 0xFFFFFFFFFFFFFFFF) ]

/-- The word holds the eight bytes, the first in bits 63:56 and the eighth in bits 7:0 (20_memory.md R43). -/
def HoldsBigEndian (r : Word) (b : Bytes8) : Prop :=
  r.extractLsb' 56 8 = b.b0 ∧ r.extractLsb' 48 8 = b.b1 ∧ r.extractLsb' 40 8 = b.b2 ∧ r.extractLsb' 32 8 = b.b3
    ∧ r.extractLsb' 24 8 = b.b4 ∧ r.extractLsb' 16 8 = b.b5 ∧ r.extractLsb' 8 8 = b.b6 ∧ r.extractLsb' 0 8 = b.b7

/-- The command offered in this step is accepted and is `i`. -/
def Takes (s : State) (i : Instr) : Prop := ∃ w, s.event = .accept w ∧ decode w = i

end Sys2Proof.Claims

open Sys2Proof.Claims

/-! ### Reset -/

/-- 10_state.md R33: the values after reset, whatever the host drives next. -/
def Obligations.ResetValues : Prop :=
  State.reset.state = Config.rngSeed ∧ State.reset.hctx = Config.hash.init ∧ State.reset.seq = .idle
    ∧ ∀ inputs : List PortIn,
        let s : State := { State.reset with inputs := inputs }
        (s.pins.rst = false → s.cmdReady = true) ∧ s.rspValid = false ∧ s.busy = false

/-- 44_sequencer.md R133: `reset` in any configuration gives the reset configuration; a command in progress is
abandoned without a response, a response not yet delivered is dropped, a word offered at the same time is not taken. -/
def Obligations.ResetEventFromAnyConfiguration : Prop :=
  ∀ s : State, s.pins.rst = true →
    step s = .next { State.reset with inputs := s.inputs.tail } ∧ s.acceptedNow = [] ∧ s.deliveredNow = []

/-- 70_reset_and_hazards.md R170: while `rst` is 1 the block accepts and delivers nothing and holds the reset state;
when `rst` returns to 0 it is in the reset state and `cmd_ready` is 1. -/
def Obligations.HeldResetHoldsResetState : Prop :=
  ∀ (s : State) (n : Nat), n + 1 ≤ s.inputs.length → (∀ p ∈ s.inputs.take (n + 1), p.rst = true) →
    s.cmdReady = false ∧ s.rspValid = false
      ∧ acceptedWords (n + 1) s = [] ∧ deliveredWords (n + 1) s = []
      ∧ Runs (n + 1) s { State.reset with inputs := s.inputs.drop (n + 1) }
      ∧ ∀ t, Runs (n + 1) s t → t.pins.rst = false → t.cmdReady = true

/-! ### Decoding and encoding -/

/-- 30_encoding.md R61 (derived there), R53: encoding is a right inverse of decoding; decoding again what is encoded
gives the same command; and two words decode alike exactly when their opcodes agree and, for the two commands with
an operand, their operands. -/
def Obligations.DecodeEncodeAgree : Prop :=
  (∀ i : Instr, decode (encode i) = i ∧ i.wellFormed = true)
    ∧ (∀ w : CommandWord, decode (encode (decode w)) = decode w)
    ∧ ∀ w v : CommandWord, decode w = decode v ↔
        (opField w = opField v ∧ ((opField w = 1 ∨ opField w = 4) → argField w = argField v))

/-- 30_encoding.md R52: as match and mask over the 67-bit word, a word fits a row of the table exactly when it
decodes to that row's command; so each word fits exactly one row. -/
def Obligations.OpcodeTableDecides : Prop :=
  (∀ (w : CommandWord) (row : OpcodeRow), row ∈ opcodeTable →
      (row.fits w = true ↔ (decode w).mnemonic = row.mnemonic))
    ∧ ∀ w : CommandWord, ∃ row ∈ opcodeTable, row.fits w = true ∧ ∀ row' ∈ opcodeTable, row'.fits w = true → row' = row

/-- 30_encoding.md R50, R52 on words of 95_test_vectors.md 3.6, each written out. -/
def Obligations.WrittenWordsDecode : Prop :=
  decode 0x00000000000000000 = .newDefault
    ∧ decode 0x10123456789ABCDEF = .newWithSeed 0x0123456789ABCDEF
    ∧ decode 0x2DEADBEEFCAFEF00D = .nextByte
    ∧ decode 0x30000000000000000 = .nextU64
    ∧ decode 0x40000000000000002 = .nextU64Max 2
    ∧ decode 0x4FFFFFFFFFFFFFFFF = .nextU64Max 0xFFFFFFFFFFFFFFFF
    ∧ decode 0x50000000000000000 = .nextBool
    ∧ decode 0x60000000000001234 = .reserved6
    ∧ decode 0x7FFFFFFFFFFFFFFFF = .reserved7

/-- 30_encoding.md R51: in a response word bit 64 is `err` and bits 63:0 are `data`; so two response words are equal
exactly when both fields are. -/
def Obligations.ResponseWordFields : Prop :=
  ∀ (data data' : Word) (err err' : Bool),
    (responseWord data err).getLsbD 64 = err ∧ (responseWord data err).extractLsb' 0 64 = data
      ∧ (responseWord data err = responseWord data' err' ↔ data = data' ∧ err = err')

/-- 30_encoding.md R59, R60: a well-formed line assembles to words that decode to the commands it stands for, a literal
that fits is encoded as it stands, and `STREAM n` is `n` words of `NEXT_BYTE`. That a line whose literal needs more than
64 bits has no words is the model's choice (assumption log entry 11); the spec does not say how it is answered. -/
def Obligations.AssembledLinesDecode : Prop :=
  (∀ l : Line, l.wellFormed = true → ∃ ws, assembleLine l = some ws ∧ ws.map decode = expandLine l)
    ∧ (∀ l : Line, l.wellFormed = false → assembleLine l = none)
    ∧ (∀ m : Nat, 2 ^ 64 ≤ m → assembleLine (.newWithSeed m) = none ∧ assembleLine (.nextU64Max m) = none)
    ∧ (∀ n : Nat, assembleLine (.stream n) = some (List.replicate n 0x20000000000000000))
    ∧ ∀ a : Word, assembleLine (.newWithSeed a.toNat) = some [encode (.newWithSeed a)]
        ∧ assembleLine (.nextU64Max a.toNat) = some [encode (.nextU64Max a)]

/-! ### The datapath -/

/-- 20_memory.md R43: eight bytes packed by big-endian accumulation, `r = (r << 8) | byte` eight times from 0: the
first byte becomes bits 63:56 and the eighth bits 7:0. Said of the model's packing step, of its loop, of `PACK8`, and of
the data that the machine offers in answer to `NEXT_U64` when the eight bytes are those it pulled. -/
def Obligations.PackingOrderBigEndian : Prop :=
  (∀ (r : Word) (x : Byte), shiftIn r x = (r <<< 8) ||| x.setWidth 64)
    ∧ (∀ b : Bytes8, HoldsBigEndian (b.toList.foldl shiftIn 0) b ∧ HoldsBigEndian (pack8 b) b)
    ∧ ∀ (s : State) (b : Bytes8), Takes s .nextU64 → s.noReset 9 = true →
        b.toList = streamBytes Config.hash 8 (s.state, s.hctx) →
        ∃ (t : State) (r : Word), Runs 9 s t ∧ t.seq = .resp r false ∧ HoldsBigEndian r b

/-- 42_byte_extraction.md R92 (its closed form and its inverse, derived there): `PACK8` is the packing loop, and
`PACK8` and `BE8` are inverse to each other. -/
def Obligations.PackIsLoopAndInvertsFeed : Prop :=
  (∀ b : Bytes8, b.toList.foldl shiftIn 0 = pack8 b)
    ∧ (∀ v : Word, pack8 (be8 v) = v) ∧ ∀ b : Bytes8, be8 (pack8 b) = b

/-- 41_core_step.md R81: the fold, as bytes and bit by bit, its corner values, that many states fold alike, and that
the order of the bytes does not matter. -/
def Obligations.FoldIsXorOfBytes : Prop :=
  (∀ v : Word, fold8 v = v.extractLsb' 56 8 ^^^ v.extractLsb' 48 8 ^^^ v.extractLsb' 40 8 ^^^ v.extractLsb' 32 8
      ^^^ v.extractLsb' 24 8 ^^^ v.extractLsb' 16 8 ^^^ v.extractLsb' 8 8 ^^^ v.extractLsb' 0 8)
    ∧ (∀ (v : Word) (i : Nat), i < 8 →
        (fold8 v).getLsbD i = (v.getLsbD i ^^ v.getLsbD (i + 8) ^^ v.getLsbD (i + 16) ^^ v.getLsbD (i + 24)
          ^^ v.getLsbD (i + 32) ^^ v.getLsbD (i + 40) ^^ v.getLsbD (i + 48) ^^ v.getLsbD (i + 56)))
    ∧ (∀ (v : Word) (l : List Byte), l.Perm (be8 v).toList → l.foldl (· ^^^ ·) 0 = fold8 v)
    ∧ fold8 0 = 0x00 ∧ fold8 0xFFFFFFFFFFFFFFFF = 0x00 ∧ fold8 0x0123456789ABCDEF = 0x00
    ∧ fold8 0x00000000000000FF = 0xFF ∧ fold8 0x8040201008040201 = 0xFF ∧ fold8 0xDEADBEEFCAFEF00D = 0xEB
    ∧ ∀ b : Byte, ∃ v v' : Word, v ≠ v' ∧ fold8 v = b ∧ fold8 v' = b

/-- 43_rejection_selector.md R110: the leading-zero count, total, 64 at zero and `63 - h` for highest set bit `h`. -/
def Obligations.LeadingZeroCount : Prop :=
  clz64 0 = 64
    ∧ (∀ v : Word, clz64 v ≤ 64 ∧ (∀ j, 64 - clz64 v ≤ j → v.getLsbD j = false)
        ∧ (clz64 v < 64 → v.getLsbD (63 - clz64 v) = true))
    ∧ (∀ (v : Word) (h : Nat), v.getLsbD h = true → (∀ j, h < j → v.getLsbD j = false) → clz64 v = 63 - h)
    ∧ clz64 1 = 63 ∧ clz64 2 = 62 ∧ clz64 3 = 62 ∧ clz64 255 = 56 ∧ clz64 256 = 55
    ∧ clz64 0x7FFFFFFFFFFFFFFF = 1 ∧ clz64 0x8000000000000000 = 0 ∧ clz64 0xFFFFFFFFFFFFFFFF = 0

/-- 43_rejection_selector.md R112, R113: the mask at zero, under which every candidate is 0; the mask at the top; and
the smear form exact everywhere. -/
def Obligations.MaskAtBoundaries : Prop :=
  clz64 0 = 64 ∧ mask 0 = 0 ∧ (∀ r : Word, r &&& mask 0 = 0)
    ∧ (∀ max : Word, max.getLsbD 63 = true → clz64 max = 0 ∧ mask max = 0xFFFFFFFFFFFFFFFF)
    ∧ ∀ max : Word, smear max = mask max

/-- 43_rejection_selector.md R111, the forms and properties it derives, and the table after R113 (derived there): the
formula over the integers does not wrap, the ones of the mask span the highest set bit down to bit 0, and the mask
covers its bound within a power of two. -/
def Obligations.MaskCoversBound : Prop :=
  (∀ row ∈ maskTable, clz64 row.1 = row.2.1 ∧ mask row.1 = row.2.2)
    ∧ ∀ max : Word,
      (mask max).toNat = 2 ^ (64 - clz64 max) - 1
        ∧ (∀ h : Nat, max.getLsbD h = true → (∀ j, h < j → max.getLsbD j = false) →
            ∀ i, (mask max).getLsbD i = decide (i ≤ h))
        ∧ max ≤ mask max ∧ (max ≠ 0 → (mask max).toNat < 2 * max.toNat)
        ∧ max &&& mask max = max ∧ mask (mask max) = mask max

/-! ### A step of the machine -/

/-- 44_sequencer.md R126, R127, R128: a step accepts the word on `cmd` exactly when the sequencer is Idle, the host
offers the word and `rst` is not asserted; and then the step is the execution of the decoded command, after the sampled
port levels are consumed. -/
def Obligations.StepRunsDecodedCommand : Prop :=
  (∀ (s : State) (w : CommandWord), s.event = .accept w ↔
      s.seq = .idle ∧ s.pins.rst = false ∧ s.pins.cmdValid = true ∧ s.pins.cmd = w)
    ∧ ∀ s : State, s.seq = .idle → s.pins.rst = false → s.pins.cmdValid = true →
        (decode s.pins.cmd).wellFormed = true
          ∧ step s = exec (decode s.pins.cmd) { s with inputs := s.inputs.tail }

/-- 44_sequencer.md R128: the effect of accepting each command in Idle. Every field not named is unchanged. -/
def Obligations.AcceptEffectByCommand : Prop :=
  (∀ (s : State) (w : CommandWord), s.event = .accept w → s.seq = .idle ∧ step s = exec (decode w) s.sampled)
    ∧ ∀ s : State, s.seq = .idle →
      exec .newDefault s = .next { s with state := Config.rngSeed, hctx := Config.hash.init, seq := .resp 0 false }
      ∧ (∀ a, exec (.newWithSeed a) s = .next { s with state := a, hctx := Config.hash.init, seq := .resp 0 false })
      ∧ exec .nextByte s = .next { s with seq := .busy .byte 1 0 0 }
      ∧ exec .nextBool s = .next { s with seq := .busy .bool 1 0 0 }
      ∧ exec .nextU64 s = .next { s with seq := .busy .u64 8 0 0 }
      ∧ (∀ a, exec (.nextU64Max a) s = .next { s with seq := .busy .u64Max 8 0 a })
      ∧ exec .reserved6 s = .next { s with seq := .resp 0 true }
      ∧ exec .reserved7 s = .next { s with seq := .resp 0 true }

/-- The model's choice (assumption log entry 5) of what a meaning answers outside Idle, where 44_sequencer.md R127
says that a word is not taken: the command waits and nothing changes. -/
def Obligations.CommandWaitsOutsideIdle : Prop :=
  ∀ (i : Instr) (s : State), s.seq ≠ .idle → exec i s = .next s

/-- 44_sequencer.md R127: a word is accepted only in Idle and only when offered; in Busy and Resp `cmd_ready` is 0 and
an offered word is not taken, not queued and not remembered. -/
def Obligations.OfferTakenOnlyWhenIdle : Prop :=
  (∀ (s : State) (w : CommandWord),
      s.acceptedNow = [w] ↔ s.cmdReady = true ∧ s.pins.cmdValid = true ∧ s.pins.cmd = w)
    ∧ ∀ (s : State) (v : Bool) (w : CommandWord), s.seq ≠ .idle →
        s.cmdReady = false ∧ s.acceptedNow = []
          ∧ step { s with inputs := { s.pins with cmdValid := v, cmd := w } :: s.inputs.tail } = step s

/-- 41_core_step.md R80 with 20_memory.md R41, R42: a tick absorbs the bytes of the current `STATE`, most significant
first, into the kept accumulator, keeps the accumulator that finalising returns, and makes the digest the new
`STATE`. -/
def Obligations.TickHashesState : Prop :=
  ∀ (s t : State) (op : PullOp) (cnt : Nat) (acc maxr : Word),
    s.pins.rst = false → s.seq = .busy op cnt acc maxr → step s = .next t →
      (t.hctx, t.state) = Config.hash.finish (Config.hash.absorb s.hctx
        { b0 := s.state.extractLsb' 56 8, b1 := s.state.extractLsb' 48 8, b2 := s.state.extractLsb' 40 8,
          b3 := s.state.extractLsb' 32 8, b4 := s.state.extractLsb' 24 8, b5 := s.state.extractLsb' 16 8,
          b6 := s.state.extractLsb' 8 8, b7 := s.state.extractLsb' 0 8 })
      ∧ t.inputs = s.inputs.tail

/-- 44_sequencer.md R130, and the tick of R129 around it: the byte is shifted in, and the pull goes on or ends. -/
def Obligations.TickAdvancesPull : Prop :=
  ∀ (s : State) (op : PullOp) (cnt : Nat) (acc maxr : Word),
    s.pins.rst = false → s.seq = .busy op cnt acc maxr →
      let g := transition Config.hash (s.state, s.hctx)
      let acc' : Word := (acc <<< 8) ||| g.2.setWidth 64
      let v : Word := acc' &&& mask maxr
      let after : Sequencer → State := fun q => { state := g.1.1, hctx := g.1.2, seq := q, inputs := s.inputs.tail }
      (1 < cnt → step s = .next (after (.busy op (cnt - 1) acc' maxr)))
        ∧ (cnt ≤ 1 →
            (op = .byte → step s = .next (after (.resp acc' false)))
            ∧ (op = .bool → step s = .next (after (.resp (if acc'.getLsbD 0 then 0 else 1) false)))
            ∧ (op = .u64 → step s = .next (after (.resp acc' false)))
            ∧ (op = .u64Max →
                step s = .next (after (if v ≤ maxr then .resp v false else .busy .u64Max 8 0 maxr))))

/-- 44_sequencer.md R131: the retry is the only backward edge: a step that stays in Busy keeps `OP` and `MAXR`, and
either counts down or is the last tick of a rejected draw; and every rejected draw starts again at 8 with `ACC` 0 and
`MAXR` kept, however often it happens, and keeps what STEP left in `STATE` and `HCTX`. -/
def Obligations.RetryIsOnlyBackwardEdge : Prop :=
  (∀ (s t : State) (op op' : PullOp) (cnt cnt' : Nat) (acc acc' maxr maxr' : Word),
    step s = .next t → s.seq = .busy op cnt acc maxr → t.seq = .busy op' cnt' acc' maxr' →
      op' = op ∧ maxr' = maxr
        ∧ (t.state, t.hctx) = (transition Config.hash (s.state, s.hctx)).1
        ∧ ((1 < cnt ∧ cnt' = cnt - 1)
            ∨ (cnt ≤ 1 ∧ op = .u64Max ∧ cnt' = 8 ∧ acc' = 0
                ∧ maxr < shiftIn acc (transition Config.hash (s.state, s.hctx)).2 &&& mask maxr)))
    ∧ ∀ (s : State) (cnt : Nat) (acc maxr : Word),
        s.pins.rst = false → s.seq = .busy .u64Max cnt acc maxr → cnt ≤ 1 →
        maxr < shiftIn acc (transition Config.hash (s.state, s.hctx)).2 &&& mask maxr →
          let g := (transition Config.hash (s.state, s.hctx)).1
          step s = .next { state := g.1, hctx := g.2, seq := .busy .u64Max 8 0 maxr, inputs := s.inputs.tail }

/-- 44_sequencer.md R132: in Resp the response word is offered and held until the host takes it; taking it returns
the sequencer to Idle and changes neither `STATE` nor `HCTX`. -/
def Obligations.ResponseHeldThenDelivered : Prop :=
  ∀ (s : State) (data : Word) (err : Bool), s.seq = .resp data err → s.pins.rst = false →
    s.rsp = some (responseWord data err) ∧ s.rspValid = true
      ∧ (s.pins.rspReady = true →
          step s = .next { s with seq := .idle, inputs := s.inputs.tail }
            ∧ s.deliveredNow = [responseWord data err])
      ∧ (s.pins.rspReady = false →
          step s = .next { s with inputs := s.inputs.tail } ∧ s.deliveredNow = [])

/-- 44_sequencer.md R137: with no reset, a block in Idle to which nothing is offered, and a block in Resp from which
nothing is taken, does not change however long the host waits. -/
def Obligations.WaitingChangesNothing : Prop :=
  ∀ (s : State) (n : Nat), s.noReset n = true →
    (s.seq = .idle → (∀ p ∈ s.inputs.take n, p.cmdValid = false) →
        Runs n s { s with inputs := s.inputs.drop n })
    ∧ (∀ data err, s.seq = .resp data err → (∀ p ∈ s.inputs.take n, p.rspReady = false) →
        Runs n s { s with inputs := s.inputs.drop n })

/-- 44_sequencer.md R134, read with 70_reset_and_hazards.md R170 as assumption log entry 6 says: with `rst` at 0 the
outputs are these functions of the sequencer alone; no output exposes `STATE`, `HCTX`, `ACC`, `CNT` or `MAXR`: two
machines both Idle, or both Busy, or offering the same response show the same. -/
def Obligations.OutputsOfSequencerAlone : Prop :=
  (∀ s : State, s.pins.rst = false →
      (s.cmdReady = true ↔ s.seq = .idle) ∧ (s.busy = true ↔ s.seq ≠ .idle)
        ∧ (s.rspValid = true ↔ ∃ data err, s.seq = .resp data err)
        ∧ ∀ word, s.rsp = some word ↔ ∃ data err, s.seq = .resp data err ∧ word = responseWord data err)
    ∧ ∀ s t : State, s.pins.rst = t.pins.rst →
        (s.seq = t.seq ∨ ∃ op cnt acc maxr op' cnt' acc' maxr',
            s.seq = .busy op cnt acc maxr ∧ t.seq = .busy op' cnt' acc' maxr') →
        s.cmdReady = t.cmdReady ∧ s.busy = t.busy ∧ s.rspValid = t.rspValid ∧ s.rsp = t.rsp

/-- 60_exceptions.md R152 read with 90_conflicts.md C4, and assumption log entry 5: no step stops the machine. -/
def Obligations.EveryStepHasNextState : Prop :=
  ∀ s : State, ∃ t, step s = .next t ∧ t.inputs = s.inputs.tail

/-- 10_state.md R21, R22, R36: what writes `STATE` and `HCTX`. A step changes the pair only by a reset, by accepting a
construction, or by a tick; and it gives `HCTX` the value `H_INIT` together with the seed. -/
def Obligations.GeneratorWrittenOnlyByStepAndConstruction : Prop :=
  ∀ s t : State, step s = .next t →
    (s.event = .reset → t.state = Config.rngSeed ∧ t.hctx = Config.hash.init)
      ∧ (Takes s .newDefault → t.state = Config.rngSeed ∧ t.hctx = Config.hash.init)
      ∧ (∀ a, Takes s (.newWithSeed a) → t.state = a ∧ t.hctx = Config.hash.init)
      ∧ (s.event = .tick → (t.state, t.hctx) = (transition Config.hash (s.state, s.hctx)).1)
      ∧ ((t.state, t.hctx) ≠ (s.state, s.hctx) →
          s.event = .reset ∨ Takes s .newDefault ∨ (∃ a, Takes s (.newWithSeed a)) ∨ s.event = .tick)

/-! ### The exception -/

/-- 60_exceptions.md R150: `IllegalCmd` is raised by accepting a word whose opcode is 6 or 7 and by nothing else; its
record is the response `{1, 0}`, and the opcode is latched nowhere. -/
def Obligations.IllegalCmdOnlyByReservedOpcode : Prop :=
  (∀ (s t : State) (data : Word), step s = .next t → t.seq = .resp data true →
      (s.event = .none ∧ s.seq = .resp data true)
        ∨ ∃ w, s.event = .accept w ∧ (opField w = 6 ∨ opField w = 7) ∧ data = 0)
    ∧ (∀ (s : State) (w : CommandWord), s.event = .accept w → (opField w = 6 ∨ opField w = 7) →
        step s = .next { s with seq := .resp 0 true, inputs := s.inputs.tail })

/-- 60_exceptions.md R156: the exception is precise. Whatever run accepts one reserved word and comes back to Idle,
the configuration after the error response has been delivered is the configuration before the word was accepted,
and the one response is the error word. -/
def Obligations.IllegalCmdIsPrecise : Prop :=
  ∀ (s t : State) (n : Nat) (w : CommandWord), s.seq = .idle → s.noReset n = true → Runs n s t →
    acceptedWords n s = [w] → (opField w = 6 ∨ opField w = 7) → t.seq = .idle →
      t.toConfiguration = s.toConfiguration ∧ deliveredWords n s = [0x10000000000000000]

/-! ### What the commands answer -/

/-- 42_byte_extraction.md R90: `NEXT_BYTE` performs one transition and offers its byte zero-extended. -/
def Obligations.NextByteAnswersFoldedDigest : Prop :=
  ∀ s : State, Takes s .nextByte → s.noReset 2 = true →
    let g := transition Config.hash (s.state, s.hctx)
    Runs 2 s { state := g.1.1, hctx := g.1.2, seq := .resp ((fold8 g.1.1).setWidth 64) false,
               inputs := s.inputs.drop 2 }

/-- 42_byte_extraction.md R93: `NEXT_BOOL` performs one transition and offers 1 when the byte is even, 0 when odd. -/
def Obligations.NextBoolAnswersParity : Prop :=
  ∀ s : State, Takes s .nextBool → s.noReset 2 = true →
    let g := transition Config.hash (s.state, s.hctx)
    Runs 2 s { state := g.1.1, hctx := g.1.2, seq := .resp (if g.2.toNat % 2 = 0 then 1 else 0) false,
               inputs := s.inputs.drop 2 }

/-- 42_byte_extraction.md R91: `NEXT_U64` performs eight transitions and offers `PACK8` of their bytes, the first byte
most significant. -/
def Obligations.NextU64AnswersPackedBytes : Prop :=
  ∀ (s : State) (b : Bytes8), Takes s .nextU64 → s.noReset 9 = true →
    b.toList = streamBytes Config.hash 8 (s.state, s.hctx) →
    let g := afterTransitions Config.hash 8 (s.state, s.hctx)
    Runs 9 s { state := g.1, hctx := g.2, seq := .resp (pack8 b) false, inputs := s.inputs.drop 9 }

/-- 43_rejection_selector.md R114, R115, R116: the first draw of `NEXT_U64_MAX`: nine steps later the masked candidate
is offered if it is at most the bound (inclusive), and otherwise the next draw begins with the bound still latched. -/
def Obligations.NextU64MaxFirstDraw : Prop :=
  ∀ (s : State) (b : Bytes8) (max : Word), Takes s (.nextU64Max max) → s.noReset 9 = true →
    b.toList = streamBytes Config.hash 8 (s.state, s.hctx) →
    let g := afterTransitions Config.hash 8 (s.state, s.hctx)
    let v := pack8 b &&& mask max
    Runs 9 s { state := g.1, hctx := g.2, seq := if v ≤ max then .resp v false else .busy .u64Max 8 0 max,
               inputs := s.inputs.drop 9 }

/-- 43_rejection_selector.md R119 (derived there) and the corner cases of R116: a bound that is its own mask, such as
0, `2^k - 1` and all ones, is answered after one draw, whatever the hash; the bound 0 by 0, all ones as `NEXT_U64`. -/
def Obligations.AllOnesBoundAnswersAtFirstDraw : Prop :=
  (∀ k : Nat, k ≤ 64 → mask (BitVec.ofNat 64 (2 ^ k - 1)) = BitVec.ofNat 64 (2 ^ k - 1))
    ∧ ∀ (s : State) (b : Bytes8) (max : Word), Takes s (.nextU64Max max) → s.noReset 9 = true → mask max = max →
      b.toList = streamBytes Config.hash 8 (s.state, s.hctx) →
      ∃ t, Runs 9 s t ∧ t.seq = .resp (pack8 b &&& max) false
        ∧ (t.state, t.hctx) = afterTransitions Config.hash 8 (s.state, s.hctx)
        ∧ (max = 0 → t.seq = .resp 0 false) ∧ (max = 0xFFFFFFFFFFFFFFFF → t.seq = .resp (pack8 b) false)

/-- 43_rejection_selector.md R118 (derived there): whenever `NEXT_U64_MAX max` responds, after however many draws, the
response is no error, is at most `max`, and has no bit above the highest set bit of `max`. -/
def Obligations.BoundedAnswerInRange : Prop :=
  ∀ (s t : State) (n : Nat) (max data : Word) (err : Bool), Takes s (.nextU64Max max) → s.noReset n = true →
    Runs n s t → acceptedWords n s ≠ [] → deliveredWords n s = [] → t.seq = .resp data err →
      err = false ∧ data ≤ max ∧ data &&& mask max = data

/-- 43_rejection_selector.md R117, 60_exceptions.md R164: with a hash whose every digest is `0xFF` (as HASH_STUCK of
95_test_vectors.md), `NEXT_U64_MAX` with a bound that is not its own mask stays Busy for ever and never responds. -/
def Obligations.StuckHashNeverResponds : Prop :=
  ∀ (H : Hash) (c : Configuration H) (max : Word), (∀ h, (H.finish h).2 = 0xFF) → mask max ≠ max →
    ∀ n : Nat, ∃ cnt acc, (Configuration.tick^[n] (c.beginPull .u64Max 8 max)).seq = .busy .u64Max cnt acc max

/-! ### Consistency of the commands with each other -/

/-- 30_encoding.md R60, 41_core_step.md R83 (both derived there): `STREAM n` from any Idle configuration takes `3n`
steps of an attentive host, delivers `byte_1 .. byte_n` and leaves the pair after `n` transitions. -/
def Obligations.StreamDeliversBytesInOrder : Prop :=
  ∀ (s : State) (n : Nat) (rest : List PortIn), s.seq = .idle → s.inputs = streamScript n ++ rest →
    let g := afterTransitions Config.hash n (s.state, s.hctx)
    Runs (3 * n) s { state := g.1, hctx := g.2, seq := .idle, inputs := rest }
      ∧ deliveredWords (3 * n) s
          = (streamBytes Config.hash n (s.state, s.hctx)).map fun b => responseWord (b.setWidth 64) false

/-- 42_byte_extraction.md R95 (derived there): eight `NEXT_BYTE` and one `NEXT_U64` from the same (`STATE`, `HCTX`)
end in the same pair, and the one response is the packing of the eight. -/
def Obligations.EightBytesAreOneU64 : Prop :=
  ∀ (s s' : State) (rest : List PortIn), s.seq = .idle → s'.seq = .idle →
    (s'.state, s'.hctx) = (s.state, s.hctx) → s.inputs = streamScript 8 ++ rest →
    s'.inputs = hostScript .nextU64 8 ++ rest →
    ∃ (b : Bytes8) (t : State),
      deliveredWords 24 s = b.toList.map (fun x => responseWord (x.setWidth 64) false)
        ∧ deliveredWords 10 s' = [responseWord (pack8 b) false]
        ∧ Runs 24 s t ∧ Runs 10 s' t ∧ t.inputs = rest

/-- 42_byte_extraction.md R96 (derived there): from the same (`STATE`, `HCTX`), if `NEXT_BYTE` answers `b`, `NEXT_BOOL`
answers `1 - b[0]` and both end in the same pair. -/
def Obligations.BoolIsParityOfByte : Prop :=
  ∀ (s s' : State) (rest : List PortIn), s.seq = .idle → s'.seq = .idle →
    (s'.state, s'.hctx) = (s.state, s.hctx) → s.inputs = hostScript .nextByte 1 ++ rest →
    s'.inputs = hostScript .nextBool 1 ++ rest →
    ∃ (b : Byte) (t : State),
      deliveredWords 3 s = [responseWord (b.setWidth 64) false]
        ∧ deliveredWords 3 s' = [responseWord (1 - (b.setWidth 64 &&& 1)) false]
        ∧ Runs 3 s t ∧ Runs 3 s' t ∧ t.inputs = rest

/-- 40_construction.md R74 (derived there): after `NEW_WITH_SEED a` the responses to whatever the host does next are
the same from any two Idle configurations, for any number of steps. -/
def Obligations.ReseedingRestartsStream : Prop :=
  ∀ (s s' : State) (a : Word) (rest : List PortIn) (n : Nat), s.seq = .idle → s'.seq = .idle →
    s.inputs = hostScript (.newWithSeed a) 0 ++ rest → s'.inputs = hostScript (.newWithSeed a) 0 ++ rest →
    deliveredWords n s = deliveredWords n s' ∧ ∀ t t', Runs (n + 2) s t → Runs (n + 2) s' t' → t = t'

/-- 40_construction.md R72 (derived there): `NEW_DEFAULT` and `NEW_WITH_SEED RNG_SEED` give the same responses and leave
the same state for ever after, and so does a reset but for the acknowledgement. -/
def Obligations.DefaultIsSeedingWithRngSeed : Prop :=
  ∀ (s s' r : State) (rest : List PortIn) (n : Nat), s.seq = .idle → s'.seq = .idle →
    s.inputs = hostScript .newDefault 0 ++ rest → s'.inputs = hostScript (.newWithSeed Config.rngSeed) 0 ++ rest →
    r.inputs = .reset :: rest →
    deliveredWords n s = deliveredWords n s'
      ∧ deliveredWords (n + 2) s = responseWord 0 false :: deliveredWords (n + 1) r
      ∧ (∃ t, Runs (n + 2) s t ∧ Runs (n + 2) s' t ∧ Runs (n + 1) r t)
      ∧ (∀ t t'', Runs (n + 2) s t → Runs (n + 2) s' t'' → t = t'')
      ∧ ∀ t t', Runs (n + 2) s t → Runs (n + 1) r t' → t = t'

/-! ### Invariants and whole runs -/

/-- Every step keeps the invariant of the sequencer registers: `CNT` in 1 to 8 (10_state.md R23), `ACC` within the
bytes already pulled (42_byte_extraction.md R91, derived there), `MAXR` 0 but for `U64MAX` (44_sequencer.md R125), an
error response without data (60_exceptions.md R150). -/
def Obligations.StepKeepsSequencerInvariant : Prop :=
  ∀ s t : State, s.wf = true → step s = .next t → t.wf = true

/-- The reset state has the invariant. -/
def Obligations.ResetHasSequencerInvariant : Prop := State.reset.wf = true

/-- 44_sequencer.md R135 (derived there), first half: if the operation level ends in a result, the sequencer reaches
exactly that configuration and response after acceptance and exactly as many ticks, and offers no response before. -/
def Obligations.SequencerRefinesOperations : Prop :=
  ∀ (s : State) (i : Instr) (fuel : Nat) (r : OpResult Config.hash), Takes s i →
    operate Config.hash Config.rngSeed fuel i (s.state, s.hctx) = some r → s.noReset (r.ticks + 1) = true →
      Runs (r.ticks + 1) s
          { state := r.gen.1, hctx := r.gen.2, seq := .resp r.data r.err, inputs := s.inputs.drop (r.ticks + 1) }
        ∧ ∀ (k : Nat) (t : State), k < r.ticks → Runs (k + 1) s t →
            ∃ op cnt acc maxr, t.seq = .busy op cnt acc maxr

/-- 44_sequencer.md R135 (derived there), second half, with 60_exceptions.md R164: for every hash, `NEXT_U64_MAX` does
not end at the operation level with any fuel exactly when its run of ticks is Busy for ever; and a run of the machine
that accepts it is that run of ticks, for as long as no response is offered. -/
def Obligations.NonterminationIsInfiniteBusyRun : Prop :=
  (∀ (H : Hash) (c : Configuration H) (max : Word),
      (∀ fuel, opNextU64Max H max fuel c.gen = none) ↔
        ∀ n : Nat, ∃ cnt acc, (Configuration.tick^[n] (c.beginPull .u64Max 8 max)).seq = .busy .u64Max cnt acc max)
    ∧ ∀ (s : State) (max : Word) (n : Nat), Takes s (.nextU64Max max) → s.noReset (n + 1) = true →
        (∀ k, k < n → ∃ cnt acc,
          (Configuration.tick^[k] (s.toConfiguration.beginPull .u64Max 8 max)).seq = .busy .u64Max cnt acc max) →
        Runs (n + 1) s { toConfiguration := Configuration.tick^[n] (s.toConfiguration.beginPull .u64Max 8 max),
                         inputs := s.inputs.drop (n + 1) }

/-- 20_memory.md R48, 44_sequencer.md R132: in a run from Idle without reset, every accepted command has its one
response delivered, but for the one command still in progress. -/
def Obligations.OneResponsePerCommand : Prop :=
  ∀ (s t : State) (n : Nat), s.seq = .idle → s.noReset n = true → Runs n s t →
    (t.seq = .idle → (acceptedWords n s).length = (deliveredWords n s).length)
      ∧ (t.seq ≠ .idle → (acceptedWords n s).length = (deliveredWords n s).length + 1)

/-- 20_memory.md R48, 10_state.md R34 and 44_sequencer.md R135 together (derived there): whatever the host does, short
of a reset, the responses a run delivers are the operation level's answers to the words it accepts, in order, and
(`STATE`, `HCTX`) is where that leaves it; a response still offered is the answer to the last word. -/
def Obligations.ResponsesAreOperationAnswers : Prop :=
  ∀ (s t : State) (n : Nat), s.seq = .idle → s.noReset n = true → Runs n s t →
    (t.seq = .idle →
        Answers Config.hash Config.rngSeed (s.state, s.hctx) (acceptedWords n s) (deliveredWords n s)
          (t.state, t.hctx))
      ∧ (∀ data err, t.seq = .resp data err →
          Answers Config.hash Config.rngSeed (s.state, s.hctx) (acceptedWords n s)
            (deliveredWords n s ++ [responseWord data err]) (t.state, t.hctx))
      ∧ (∀ op cnt acc maxr, t.seq = .busy op cnt acc maxr →
          ∃ ws w g, acceptedWords n s = ws ++ [w]
            ∧ Answers Config.hash Config.rngSeed (s.state, s.hctx) ws (deliveredWords n s) g)

/-- 10_state.md R34 (derived there): the responses depend on the accepted words alone and not on when the host raised
its handshake signals. Two runs, of any lengths and with any host behaviour but a reset, from the same Idle pair,
that accept the same words deliver the same responses as far as both have come, and all the same when both are done. -/
def Obligations.ResponsesIndependentOfTiming : Prop :=
  ∀ (s s' t t' : State) (n n' : Nat), s.seq = .idle → s'.seq = .idle → (s'.state, s'.hctx) = (s.state, s.hctx) →
    s.noReset n = true → s'.noReset n' = true → Runs n s t → Runs n' s' t' →
    acceptedWords n s = acceptedWords n' s' →
      (deliveredWords n s <+: deliveredWords n' s' ∨ deliveredWords n' s' <+: deliveredWords n s)
        ∧ (t.seq = .idle → t'.seq = .idle →
            deliveredWords n s = deliveredWords n' s' ∧ (t.state, t.hctx) = (t'.state, t'.hctx))
end

