-- ==== Sys2Proof/Laws/State.lean ====
section
/-! SUPPORT. One lemma for each field and each update of a configuration or of the state, all true by definition, so
that no proof unfolds a record update. -/

namespace Sys2Proof.Machine

section configuration
variable {H : Hash} (c : Configuration H) (g : Gen H) (data : Word) (err : Bool) (seed : Word)
  (op : PullOp) (cnt : Nat) (maxr : Word)

@[simp] theorem Configuration.gen_fst : c.gen.1 = c.state := rfl
@[simp] theorem Configuration.gen_snd : c.gen.2 = c.hctx := rfl
@[simp] theorem Configuration.withGen_state : (c.withGen g).state = g.1 := rfl
@[simp] theorem Configuration.withGen_hctx : (c.withGen g).hctx = g.2 := rfl
@[simp] theorem Configuration.withGen_seq : (c.withGen g).seq = c.seq := rfl
@[simp] theorem Configuration.withGen_gen : (c.withGen g).gen = g := rfl
@[simp] theorem Configuration.respond_state : (c.respond data err).state = c.state := rfl
@[simp] theorem Configuration.respond_hctx : (c.respond data err).hctx = c.hctx := rfl
@[simp] theorem Configuration.respond_seq : (c.respond data err).seq = .resp data err := rfl
@[simp] theorem Configuration.respond_gen : (c.respond data err).gen = c.gen := rfl
@[simp] theorem Configuration.construct_state : (c.construct seed).state = seed := rfl
@[simp] theorem Configuration.construct_hctx : (c.construct seed).hctx = H.init := rfl
@[simp] theorem Configuration.construct_seq : (c.construct seed).seq = .resp 0 false := rfl
@[simp] theorem Configuration.construct_gen : (c.construct seed).gen = (seed, H.init) := rfl
@[simp] theorem Configuration.beginPull_state : (c.beginPull op cnt maxr).state = c.state := rfl
@[simp] theorem Configuration.beginPull_hctx : (c.beginPull op cnt maxr).hctx = c.hctx := rfl
@[simp] theorem Configuration.beginPull_seq : (c.beginPull op cnt maxr).seq = .busy op cnt 0 maxr := rfl
@[simp] theorem Configuration.beginPull_gen : (c.beginPull op cnt maxr).gen = c.gen := rfl
@[simp] theorem Configuration.illegalCmd_state : c.illegalCmd.state = c.state := rfl
@[simp] theorem Configuration.illegalCmd_hctx : c.illegalCmd.hctx = c.hctx := rfl
@[simp] theorem Configuration.illegalCmd_seq : c.illegalCmd.seq = .resp 0 true := rfl
@[simp] theorem Configuration.illegalCmd_gen : c.illegalCmd.gen = c.gen := rfl
@[simp] theorem Configuration.deliver_state : c.deliver.state = c.state := rfl
@[simp] theorem Configuration.deliver_hctx : c.deliver.hctx = c.hctx := rfl
@[simp] theorem Configuration.deliver_seq : c.deliver.seq = .idle := rfl
@[simp] theorem Configuration.deliver_gen : c.deliver.gen = c.gen := rfl
@[simp] theorem Configuration.afterReset_state : (Configuration.afterReset H seed).state = seed := rfl
@[simp] theorem Configuration.afterReset_hctx : (Configuration.afterReset H seed).hctx = H.init := rfl
@[simp] theorem Configuration.afterReset_seq : (Configuration.afterReset H seed).seq = .idle := rfl
@[simp] theorem Configuration.afterReset_gen : (Configuration.afterReset H seed).gen = (seed, H.init) := rfl

/-- Two configurations with the same (`STATE`, `HCTX`) and the same sequencer are the same. -/
theorem Configuration.ext_gen {c d : Configuration H} (hg : c.gen = d.gen) (hs : c.seq = d.seq) : c = d := by
  obtain ⟨s, h, q⟩ := c
  obtain ⟨s', h', q'⟩ := d
  obtain ⟨rfl, rfl⟩ := Prod.mk.inj hg
  obtain rfl : q = q' := hs
  rfl

end configuration

section state
variable (s : State) (f : Configuration Config.hash → Configuration Config.hash)

@[simp] theorem State.mapConfiguration_toConfiguration :
    (s.mapConfiguration f).toConfiguration = f s.toConfiguration := rfl
@[simp] theorem State.mapConfiguration_inputs : (s.mapConfiguration f).inputs = s.inputs := rfl
@[simp] theorem State.sampled_toConfiguration : s.sampled.toConfiguration = s.toConfiguration := rfl
@[simp] theorem State.sampled_inputs : s.sampled.inputs = s.inputs.tail := rfl
@[simp] theorem State.resetBlock_toConfiguration :
    s.resetBlock.toConfiguration = .afterReset Config.hash Config.rngSeed := rfl
@[simp] theorem State.resetBlock_inputs : s.resetBlock.inputs = s.inputs := rfl
@[simp] theorem State.tickBlock_toConfiguration : s.tickBlock.toConfiguration = s.toConfiguration.tick := rfl
@[simp] theorem State.tickBlock_inputs : s.tickBlock.inputs = s.inputs := rfl
@[simp] theorem State.deliverBlock_toConfiguration : s.deliverBlock.toConfiguration = s.toConfiguration.deliver := rfl
@[simp] theorem State.deliverBlock_inputs : s.deliverBlock.inputs = s.inputs := rfl
@[simp] theorem State.reset_toConfiguration :
    State.reset.toConfiguration = .afterReset Config.hash Config.rngSeed := rfl
@[simp] theorem State.reset_inputs : State.reset.inputs = [] := rfl
@[simp] theorem State.withFetchWord_state (nbits w : Nat) : (s.withFetchWord nbits w).state = s.state := rfl
@[simp] theorem State.withFetchWord_hctx (nbits w : Nat) : (s.withFetchWord nbits w).hctx = s.hctx := rfl
@[simp] theorem State.withFetchWord_seq (nbits w : Nat) : (s.withFetchWord nbits w).seq = .idle := rfl
@[simp] theorem State.withFetchWord_pins (nbits w : Nat) :
    (s.withFetchWord nbits w).pins = offerTableWord nbits w := rfl

/-- Two machine states with the same configuration and the same coming inputs are the same. -/
theorem State.ext_parts {s t : State} (hc : s.toConfiguration = t.toConfiguration) (hi : s.inputs = t.inputs) :
    s = t := by
  obtain ⟨c, i⟩ := s
  obtain ⟨d, j⟩ := t
  obtain rfl : c = d := hc
  obtain rfl : i = j := hi
  rfl

end state

end Sys2Proof.Machine
end

