-- ==== Sys2Proof/Laws/Ops.lean ====
section
/-! SUPPORT. For each shared operation, once, everything it can do. -/

namespace Sys2Proof.Machine

/-- STEP as the pure function of 41_core_step.md R80. -/
theorem transition_eq (H : Hash) (g : Gen H) :
    transition H g =
      (((H.finish (H.absorb g.2 (be8 g.1))).2, (H.finish (H.absorb g.2 (be8 g.1))).1),
        fold8 (H.finish (H.absorb g.2 (be8 g.1))).2) := rfl

/-- The byte of a transition is the fold of the new `STATE`. -/
theorem transition_byte (H : Hash) (g : Gen H) : (transition H g).2 = fold8 (transition H g).1.1 := rfl

theorem State.whenReady_idle {s : State} (f : Configuration Config.hash → Configuration Config.hash)
    (h : s.seq = .idle) : s.whenReady f = .next (s.mapConfiguration f) := by
  simp [State.whenReady, h]

theorem State.whenReady_waits {s : State} (f : Configuration Config.hash → Configuration Config.hash)
    (h : s.seq ≠ .idle) : s.whenReady f = .next s := by
  unfold State.whenReady
  split
  · contradiction
  · rfl
  · rfl

/-- An offered command answers a next state: with its effect in Idle, unchanged elsewhere. -/
theorem State.whenReady_cases {s t : State} {f : Configuration Config.hash → Configuration Config.hash}
    (h : s.whenReady f = .next t) :
    (s.seq = .idle ∧ t = s.mapConfiguration f) ∨ (s.seq ≠ .idle ∧ t = s) := by
  by_cases hs : s.seq = .idle
  · rw [State.whenReady_idle f hs] at h
    exact .inl ⟨hs, by injection h with h; exact h.symm⟩
  · rw [State.whenReady_waits f hs] at h
    exact .inr ⟨hs, by injection h with h; exact h.symm⟩

theorem advancePull_more {cnt : Nat} (op : PullOp) (acc maxr : Word) (h : 1 < cnt) :
    advancePull op cnt acc maxr = .busy op (cnt - 1) acc maxr := by
  simp [advancePull, h]

theorem advancePull_last {cnt : Nat} (op : PullOp) (acc maxr : Word) (h : cnt ≤ 1) :
    advancePull op cnt acc maxr = finishPull op acc maxr := by
  simp [advancePull, Nat.not_lt.mpr h]

/-- The end of a pull offers a response without error, or is the retry of a rejected draw. -/
theorem finishPull_cases (op : PullOp) (acc maxr : Word) :
    (∃ data, finishPull op acc maxr = .resp data false)
      ∨ (op = .u64Max ∧ accepts (acc &&& mask maxr) maxr = false
          ∧ finishPull op acc maxr = .busy .u64Max 8 0 maxr) := by
  cases op with
  | byte => exact .inl ⟨acc, rfl⟩
  | bool =>
    left
    by_cases h : isEven acc = true
    · exact ⟨1, by simp [finishPull, h]⟩
    · exact ⟨0, by simp [finishPull, h]⟩
  | u64 => exact .inl ⟨acc, rfl⟩
  | u64Max =>
    by_cases h : accepts (acc &&& mask maxr) maxr = true
    · exact .inl ⟨_, by simp [finishPull, h]; rfl⟩
    · exact .inr ⟨rfl, by simpa using h, by simp [finishPull, h]⟩

/-- An accepted draw ends the command. -/
theorem finishPull_accepted {acc maxr : Word} (h : accepts (acc &&& mask maxr) maxr = true) :
    finishPull .u64Max acc maxr = .resp (acc &&& mask maxr) false := by
  simp [finishPull, h]

/-- A rejected draw is retried. -/
theorem finishPull_rejected {acc maxr : Word} (h : accepts (acc &&& mask maxr) maxr = false) :
    finishPull .u64Max acc maxr = .busy .u64Max 8 0 maxr := by
  simp [finishPull, h]

theorem Configuration.tick_idle {H : Hash} {c : Configuration H} (h : c.seq = .idle) : c.tick = c := by
  simp [Configuration.tick, h]

theorem Configuration.tick_resp {H : Hash} {c : Configuration H} {data : Word} {err : Bool}
    (h : c.seq = .resp data err) : c.tick = c := by
  simp [Configuration.tick, h]

/-- A tick in Busy is one STEP and one packing step (44_sequencer.md R129). -/
theorem Configuration.tick_busy {H : Hash} {c : Configuration H} {op : PullOp} {cnt : Nat} {acc maxr : Word}
    (h : c.seq = .busy op cnt acc maxr) :
    c.tick = { state := (transition H c.gen).1.1, hctx := (transition H c.gen).1.2,
               seq := advancePull op cnt (shiftIn acc (transition H c.gen).2) maxr } := by
  simp [Configuration.tick, h, Configuration.withGen]

theorem Configuration.tick_busy_gen {H : Hash} {c : Configuration H} {op : PullOp} {cnt : Nat} {acc maxr : Word}
    (h : c.seq = .busy op cnt acc maxr) : c.tick.gen = (transition H c.gen).1 := by
  rw [Configuration.tick_busy h]; rfl

theorem Configuration.tick_busy_seq {H : Hash} {c : Configuration H} {op : PullOp} {cnt : Nat} {acc maxr : Word}
    (h : c.seq = .busy op cnt acc maxr) :
    c.tick.seq = advancePull op cnt (shiftIn acc (transition H c.gen).2) maxr := by
  rw [Configuration.tick_busy h]

@[simp] theorem afterTransitions_zero (H : Hash) (g : Gen H) : afterTransitions H 0 g = g := rfl
theorem afterTransitions_succ (H : Hash) (n : Nat) (g : Gen H) :
    afterTransitions H (n + 1) g = afterTransitions H n (transition H g).1 := rfl
@[simp] theorem streamBytes_zero (H : Hash) (g : Gen H) : streamBytes H 0 g = [] := rfl
theorem streamBytes_succ (H : Hash) (n : Nat) (g : Gen H) :
    streamBytes H (n + 1) g = (transition H g).2 :: streamBytes H n (transition H g).1 := rfl
@[simp] theorem pullBytes_zero (H : Hash) (g : Gen H) (r : Word) : pullBytes H 0 g r = (g, r) := rfl
theorem pullBytes_succ (H : Hash) (n : Nat) (g : Gen H) (r : Word) :
    pullBytes H (n + 1) g r = pullBytes H n (transition H g).1 (shiftIn r (transition H g).2) := rfl

/-- The packing loop is the stream's next bytes shifted in, and as many transitions. -/
theorem pullBytes_eq (H : Hash) (n : Nat) (g : Gen H) (r : Word) :
    pullBytes H n g r = (afterTransitions H n g, (streamBytes H n g).foldl shiftIn r) := by
  induction n generalizing g r with
  | zero => rfl
  | succ n ih => simp [pullBytes_succ, afterTransitions_succ, streamBytes_succ, ih]

/-- The stream's next `n` bytes are `n` bytes. -/
theorem streamBytes_length (H : Hash) (n : Nat) (g : Gen H) : (streamBytes H n g).length = n := by
  induction n generalizing g with
  | zero => rfl
  | succ n ih => simp [streamBytes_succ, ih]

@[simp] theorem opNextU64Max_zero (H : Hash) (max : Word) (g : Gen H) : opNextU64Max H max 0 g = none := rfl

theorem opNextU64Max_succ (H : Hash) (max : Word) (fuel : Nat) (g : Gen H) :
    opNextU64Max H max (fuel + 1) g =
      if accepts (opDraw H max g).2 max then
        some { gen := (opDraw H max g).1, data := (opDraw H max g).2, err := false, ticks := 8 }
      else (opNextU64Max H max fuel (opDraw H max g).1).map fun r => { r with ticks := r.ticks + 8 } := rfl

end Sys2Proof.Machine
end

