-- ==== Sys2Proof/Laws/PerInstr.lean ====
section
/-! SUPPORT. Statements about every command, one lemma for each constructor. -/

namespace Sys2Proof

/-- The opcode field of a word built from its two fields. -/
theorem opField_commandWord (op : BitVec 3) (arg : Word) : opField (commandWord op arg) = op := by
  apply BitVec.eq_of_getLsbD_eq
  intro i hi
  unfold opField commandWord
  rw [BitVec.getLsbD_extractLsb']
  have h := BitVec.getLsbD_append (x := op) (y := arg) (i := 64 + i)
  rw [if_neg (by omega), Nat.add_sub_cancel_left] at h
  simpa [hi] using h

/-- The operand field of a word built from its two fields. -/
theorem argField_commandWord (op : BitVec 3) (arg : Word) : argField (commandWord op arg) = arg := by
  apply BitVec.eq_of_getLsbD_eq
  intro i hi
  unfold argField commandWord
  rw [BitVec.getLsbD_extractLsb']
  have h := BitVec.getLsbD_append (x := op) (y := arg) (i := i)
  simpa [hi] using h

namespace Laws

/-- The two fields of an encoded command are its opcode and its operand (30_encoding.md R50, R52). -/
def EncodeFields.Statement (i : Instr) : Prop :=
  opField (encode i) = i.opcode ∧ argField (encode i) = i.operand

theorem EncodeFields.newDefault : EncodeFields.Statement .newDefault :=
  ⟨opField_commandWord _ _, argField_commandWord _ _⟩

theorem EncodeFields.newWithSeed (seed : Word) : EncodeFields.Statement (.newWithSeed seed) :=
  ⟨opField_commandWord _ _, argField_commandWord _ _⟩

theorem EncodeFields.nextByte : EncodeFields.Statement .nextByte :=
  ⟨opField_commandWord _ _, argField_commandWord _ _⟩

theorem EncodeFields.nextU64 : EncodeFields.Statement .nextU64 :=
  ⟨opField_commandWord _ _, argField_commandWord _ _⟩

theorem EncodeFields.nextU64Max (max : Word) : EncodeFields.Statement (.nextU64Max max) :=
  ⟨opField_commandWord _ _, argField_commandWord _ _⟩

theorem EncodeFields.nextBool : EncodeFields.Statement .nextBool :=
  ⟨opField_commandWord _ _, argField_commandWord _ _⟩

theorem EncodeFields.reserved6 : EncodeFields.Statement .reserved6 :=
  ⟨opField_commandWord _ _, argField_commandWord _ _⟩

theorem EncodeFields.reserved7 : EncodeFields.Statement .reserved7 :=
  ⟨opField_commandWord _ _, argField_commandWord _ _⟩

end Laws

end Sys2Proof
end

