-- ==== Sys2Proof/Laws/Step.lean ====
section
/-! SUPPORT. What a command does when accepted, what each event does, and what one step can do: the inversion lemmas
that proofs about runs cite. -/

namespace Sys2Proof.Machine

/-- The effect of accepting a command on the configuration (44_sequencer.md R128). -/
def acceptEffect (i : Instr) : Configuration Config.hash → Configuration Config.hash :=
  match i with
  | .newDefault => .construct Config.rngSeed
  | .newWithSeed seed => .construct seed
  | .nextByte => .beginPull .byte 1 0
  | .nextU64 => .beginPull .u64 8 0
  | .nextU64Max max => .beginPull .u64Max 8 max
  | .nextBool => .beginPull .bool 1 0
  | .reserved6 => .illegalCmd
  | .reserved7 => .illegalCmd

/-- Every command is its acceptance effect behind the one handshake rule. -/
theorem exec_eq_whenReady (i : Instr) (s : State) : exec i s = s.whenReady (acceptEffect i) := by
  cases i <;> rfl

/-- Everything an executed command can do. -/
theorem exec_cases {i : Instr} {s t : State} (h : exec i s = .next t) :
    (s.seq = .idle ∧ t = s.mapConfiguration (acceptEffect i)) ∨ (s.seq ≠ .idle ∧ t = s) :=
  State.whenReady_cases (exec_eq_whenReady i s ▸ h)

/-- Which levels and which phase make which event (44_sequencer.md R126). -/
theorem event_cases (s : State) :
    (s.pins.rst = true ∧ s.event = .reset)
      ∨ (s.pins.rst = false ∧ s.seq = .idle ∧ s.pins.cmdValid = true ∧ s.event = .accept s.pins.cmd)
      ∨ (s.pins.rst = false ∧ s.seq = .idle ∧ s.pins.cmdValid = false ∧ s.event = .none)
      ∨ (s.pins.rst = false ∧ (∃ op cnt acc maxr, s.seq = .busy op cnt acc maxr) ∧ s.event = .tick)
      ∨ (s.pins.rst = false ∧ (∃ data err, s.seq = .resp data err) ∧ s.pins.rspReady = true ∧ s.event = .deliver)
      ∨ (s.pins.rst = false ∧ (∃ data err, s.seq = .resp data err) ∧ s.pins.rspReady = false ∧ s.event = .none) := by
  unfold State.event eventOf
  cases hr : s.pins.rst <;> cases hs : s.seq <;> cases hv : s.pins.cmdValid <;> cases hp : s.pins.rspReady <;> simp

/-- The configuration and the inputs after any one step, by its event, with the phase that enables the event. -/
theorem step_cases {s t : State} (h : step s = .next t) :
    t.inputs = s.inputs.tail ∧
      ((s.pins.rst = true ∧ s.event = .reset ∧ t.toConfiguration = .afterReset Config.hash Config.rngSeed)
        ∨ (∃ w, s.event = .accept w ∧ s.pins.rst = false ∧ s.seq = .idle
            ∧ t.toConfiguration = acceptEffect (decode w) s.toConfiguration)
        ∨ (∃ op cnt acc maxr, s.event = .tick ∧ s.pins.rst = false ∧ s.seq = .busy op cnt acc maxr
            ∧ t.toConfiguration = s.toConfiguration.tick)
        ∨ (∃ data err, s.event = .deliver ∧ s.pins.rst = false ∧ s.seq = .resp data err
            ∧ t.toConfiguration = s.toConfiguration.deliver)
        ∨ (s.event = .none ∧ s.pins.rst = false ∧ (∀ op cnt acc maxr, s.seq ≠ .busy op cnt acc maxr)
            ∧ t.toConfiguration = s.toConfiguration)) := by
  unfold step at h
  rcases event_cases s with ⟨hr, he⟩ | ⟨hr, hs, _, he⟩ | ⟨hr, hs, _, he⟩ | ⟨hr, ⟨_, _, _, _, hs⟩, he⟩
    | ⟨hr, ⟨_, _, hs⟩, _, he⟩ | ⟨hr, ⟨_, _, hs⟩, _, he⟩
  · rw [he] at h; injection h with h; subst h; simp [he, hr]
  · rw [he] at h
    rcases exec_cases h with ⟨_, rfl⟩ | ⟨hn, _⟩
    · simp [he, hr, hs]
    · exact absurd hs hn
  · rw [he] at h; injection h with h; subst h; simp [he, hr, hs]
  · rw [he] at h; injection h with h; subst h; simp [he, hr, hs]
  · rw [he] at h; injection h with h; subst h; simp [he, hr, hs]
  · rw [he] at h; injection h with h; subst h; simp [he, hr, hs]

/-- The step of a `reset` event. -/
theorem step_reset {s : State} (h : s.event = .reset) : step s = .next s.sampled.resetBlock := by
  simp [step, h]

/-- The step of an `accept` event, in Idle. -/
theorem step_accept {s : State} {w : CommandWord} (h : s.event = .accept w) (hs : s.seq = .idle) :
    step s = .next (s.sampled.mapConfiguration (acceptEffect (decode w))) := by
  simp only [step, h, exec_eq_whenReady]
  exact State.whenReady_idle _ hs

/-- The step of a `tick` event. -/
theorem step_tick {s : State} (h : s.event = .tick) : step s = .next s.sampled.tickBlock := by
  simp [step, h]

/-- The step of a `deliver` event. -/
theorem step_deliver {s : State} (h : s.event = .deliver) : step s = .next s.sampled.deliverBlock := by
  simp [step, h]

/-- The step in which no event happens. -/
theorem step_none {s : State} (h : s.event = .none) : step s = .next s.sampled := by
  simp [step, h]

/-- A busy block without reset ticks. -/
theorem event_of_busy {s : State} {op : PullOp} {cnt : Nat} {acc maxr : Word} (hr : s.pins.rst = false)
    (hs : s.seq = .busy op cnt acc maxr) : s.event = .tick := by
  simp [State.event, eventOf, hr, hs]

/-- An accepted word finds the block Idle and `rst` at 0. -/
theorem idle_of_accept {s : State} {w : CommandWord} (h : s.event = .accept w) :
    s.seq = .idle ∧ s.pins.rst = false ∧ s.pins.cmdValid = true ∧ s.pins.cmd = w := by
  rcases event_cases s with ⟨_, he⟩ | ⟨hr, hs, hv, he⟩ | ⟨_, _, _, he⟩ | ⟨_, _, he⟩ | ⟨_, _, _, he⟩ | ⟨_, _, _, he⟩
    <;> rw [he] at h <;> cases h
  exact ⟨hs, hr, hv, rfl⟩

/-- A run of no steps. -/
@[simp] theorem runs_zero {s t : State} : Runs 0 s t ↔ s = t := Iff.rfl

/-- A run of one more step is a step and a run. -/
theorem runs_succ {n : Nat} {s t : State} : Runs (n + 1) s t ↔ ∃ u, step s = .next u ∧ Runs n u t := Iff.rfl

/-- Two runs one after the other are one run. -/
theorem runs_add {n m : Nat} {s t u : State} (h : Runs n s t) (h' : Runs m t u) : Runs (n + m) s u := by
  induction n generalizing s with
  | zero => rw [Nat.zero_add]; exact runs_zero.mp h ▸ h'
  | succ n ih =>
    obtain ⟨v, hv, hr⟩ := runs_succ.mp h
    rw [Nat.succ_add]
    exact runs_succ.mpr ⟨v, hv, ih hr⟩

/-- A run has one end. -/
theorem runs_unique {n : Nat} {s t u : State} (h : Runs n s t) (h' : Runs n s u) : t = u := by
  induction n generalizing s with
  | zero => exact (runs_zero.mp h).symm.trans (runs_zero.mp h')
  | succ n ih =>
    obtain ⟨v, hv, hr⟩ := runs_succ.mp h
    obtain ⟨v', hv', hr'⟩ := runs_succ.mp h'
    rw [hv] at hv'
    injection hv' with e
    exact ih hr (e ▸ hr')

theorem acceptedWords_succ {n : Nat} {s t : State} (h : step s = .next t) :
    acceptedWords (n + 1) s = s.acceptedNow ++ acceptedWords n t := by
  simp [acceptedWords, h]

theorem deliveredWords_succ {n : Nat} {s t : State} (h : step s = .next t) :
    deliveredWords (n + 1) s = s.deliveredNow ++ deliveredWords n t := by
  simp [deliveredWords, h]

/-- The words accepted along two runs one after the other. -/
theorem acceptedWords_add {n m : Nat} {s t : State} (h : Runs n s t) :
    acceptedWords (n + m) s = acceptedWords n s ++ acceptedWords m t := by
  induction n generalizing s with
  | zero => rw [Nat.zero_add, runs_zero.mp h]; rfl
  | succ n ih =>
    obtain ⟨v, hv, hr⟩ := runs_succ.mp h
    rw [Nat.succ_add, acceptedWords_succ hv, acceptedWords_succ hv, ih hr, List.append_assoc]

/-- The responses delivered along two runs one after the other. -/
theorem deliveredWords_add {n m : Nat} {s t : State} (h : Runs n s t) :
    deliveredWords (n + m) s = deliveredWords n s ++ deliveredWords m t := by
  induction n generalizing s with
  | zero => rw [Nat.zero_add, runs_zero.mp h]; rfl
  | succ n ih =>
    obtain ⟨v, hv, hr⟩ := runs_succ.mp h
    rw [Nat.succ_add, deliveredWords_succ hv, deliveredWords_succ hv, ih hr, List.append_assoc]

/-- A run consumes one sample of the input ports a step. -/
theorem runs_inputs {n : Nat} {s t : State} (h : Runs n s t) : t.inputs = s.inputs.drop n := by
  induction n generalizing s with
  | zero => rw [runs_zero.mp h]; rfl
  | succ n ih =>
    obtain ⟨v, hv, hr⟩ := runs_succ.mp h
    rw [ih hr, (step_cases hv).1, List.drop_tail]

/-- A run of one more step is a run and a step. -/
theorem runs_succ_last {n : Nat} {s t : State} : Runs (n + 1) s t ↔ ∃ u, Runs n s u ∧ step u = .next t := by
  constructor
  · intro h
    induction n generalizing s with
    | zero =>
      obtain ⟨v, hv, hr⟩ := runs_succ.mp h
      exact ⟨s, rfl, runs_zero.mp hr ▸ hv⟩
    | succ n ih =>
      obtain ⟨v, hv, hr⟩ := runs_succ.mp h
      obtain ⟨u, hu, hs⟩ := ih hr
      exact ⟨u, runs_succ.mpr ⟨v, hv, hu⟩, hs⟩
  · rintro ⟨u, hu, hs⟩
    exact runs_add hu ⟨t, hs, rfl⟩

theorem acceptedWords_succ_last {n : Nat} {s u t : State} (h : Runs n s u) (hs : step u = .next t) :
    acceptedWords (n + 1) s = acceptedWords n s ++ u.acceptedNow := by
  rw [acceptedWords_add h, acceptedWords_succ hs]
  simp [acceptedWords]

theorem deliveredWords_succ_last {n : Nat} {s u t : State} (h : Runs n s u) (hs : step u = .next t) :
    deliveredWords (n + 1) s = deliveredWords n s ++ u.deliveredNow := by
  rw [deliveredWords_add h, deliveredWords_succ hs]
  simp [deliveredWords]

/-- A reset-free run is reset-free up to its last step and in it. -/
theorem noReset_succ_last {n : Nat} {s u : State} (h : Runs n s u) :
    s.noReset (n + 1) = (s.noReset n && !u.pins.rst) := by
  unfold State.noReset State.pins
  rw [runs_inputs h, List.take_add_one, List.all_append, ← List.head?_drop]
  cases (s.inputs.drop n) <;> simp [PortIn.quiet]

theorem noReset_zero (s : State) : s.noReset 0 = true := by
  simp [State.noReset]

/-- A reset-free run starts with a step without reset and goes on reset-free. -/
theorem noReset_succ {n : Nat} {s t : State} (h : t.inputs = s.inputs.tail) :
    s.noReset (n + 1) = (!s.pins.rst && t.noReset n) := by
  unfold State.noReset State.pins
  rw [h]
  cases s.inputs with
  | nil => simp [PortIn.quiet]
  | cons p ps => simp

end Sys2Proof.Machine
end

