-- ==== Sys2Proof/Tests/Slice0.lean ====
section
/-! SUPPORT. The model's own tests: words written out from the encoding, checks that refuse, values of
95_test_vectors.md under its fixture hashes, one small step each, and for every statement with hypotheses a concrete
case that meets them. -/

open Sys2Proof Sys2Proof.Machine Sys2Proof.Claims

namespace Sys2Proof.Tests

/-! ### Checks that refuse -/

/-- A seed literal of 2^64 does not fit the field; the largest that fits does. -/
theorem test_seed_literal_too_wide :
    (Line.newWithSeed (2 ^ 64)).wellFormed = false ∧ (Line.newWithSeed (2 ^ 64 - 1)).wellFormed = true := by decide

/-- A bound literal of 2^64 does not fit the field. -/
theorem test_bound_literal_too_wide :
    (Line.nextU64Max (2 ^ 64)).wellFormed = false ∧ (Line.nextU64Max 0).wellFormed = true := by decide

/-- A number of 68 bits is no command word, and is rejected by name. -/
theorem test_word_too_wide :
    wordOfTable 72 0x80000000000000000 = .error .tooWide ∧ decodeTableWord 72 0x80000000000000000 = none := by decide

/-! ### Decoding: words written out from 30_encoding.md R50 and R52 -/

theorem test_decode_new_default : decodeTableWord 72 0x00000000000000000 = some .newDefault := by decide
theorem test_decode_new_default_arg : decode 0x0FFFFFFFFFFFFFFFF = .newDefault := by decide
theorem test_decode_new_with_seed :
    decodeTableWord 72 0x10123456789ABCDEF = some (.newWithSeed 0x0123456789ABCDEF) := by decide
theorem test_decode_next_byte : decodeTableWord 72 0x2DEADBEEFCAFEF00D = some .nextByte := by decide
theorem test_decode_next_u64 : decodeTableWord 72 0x30000000000000000 = some .nextU64 := by decide
theorem test_decode_next_u64_max : decodeTableWord 72 0x40000000000000002 = some (.nextU64Max 2) := by decide
theorem test_decode_next_bool : decodeTableWord 72 0x50000000000000000 = some .nextBool := by decide
theorem test_decode_reserved6 : decodeTableWord 72 0x60000000000001234 = some .reserved6 := by decide
theorem test_decode_reserved7 : decodeTableWord 72 0x7FFFFFFFFFFFFFFFF = some .reserved7 := by decide
theorem test_encode_seed : encode (.newWithSeed 0x0123456789ABCDEF) = 0x10123456789ABCDEF := by decide
theorem test_encode_bound : encode (.nextU64Max 0x3E8) = 0x400000000000003E8 := by decide

/-- No two rows of the opcode table overlap (R55). -/
theorem test_rows_disjoint :
    opcodeTable.Pairwise fun r r' => r.mask = r'.mask ∧ r.pattern ≠ r'.pattern := by decide

/-! ### The assembler (30_encoding.md R59, R60) -/

theorem test_read_seed_line :
    readLine ['N', 'E', 'W', '_', 'W', 'I', 'T', 'H', '_', 'S', 'E', 'E', 'D', ' ', '0', 'x', '0', '1', 'F', 'f']
      = some (.newWithSeed 0x1FF) := by decide
theorem test_read_stream_line : readLine ['S', 'T', 'R', 'E', 'A', 'M', ' ', '1', '2'] = some (.stream 12) := by decide
theorem test_assemble_stream :
    assembleLine (.stream 2) = some [0x20000000000000000, 0x20000000000000000] := by decide
theorem test_write_error : writeResponse 0 true = ['-', '>', ' ', 'E', 'R', 'R'] := by decide

/-! ### Helper functions: 95_test_vectors.md 3.1 -/

theorem test_be8 : be8 0x0123456789ABCDEF = ⟨0x01, 0x23, 0x45, 0x67, 0x89, 0xAB, 0xCD, 0xEF⟩ := by decide
theorem test_fold8 : fold8 0xDEADBEEFCAFEF00D = 0xEB ∧ fold8 0xA8C7F832281A39C5 = 0x6B := by decide
theorem test_pack8 : pack8 ⟨0x01, 0x02, 0x04, 0x08, 0x10, 0x20, 0x40, 0x80⟩ = 0x0102040810204080 := by decide
theorem test_mask : mask 0x100 = 0x1FF ∧ mask 0 = 0 ∧ mask 0x8000000000000000 = 0xFFFFFFFFFFFFFFFF := by decide

/-! ### Fixture hashes of 95_test_vectors.md section 2; none is the hardware's hash -/

/-- HASH_ADD. -/
def hashAdd : Hash := { bits := 64, init := 0, absorb := fun c b => c + pack8 b, finish := fun c => (c, c) }

/-- HASH_FNV: sensitive to the feed order. -/
def hashFnv : Hash :=
  { bits := 64, init := 0xCBF29CE484222325,
    absorb := fun c b => b.toList.foldl (fun c x => (c ^^^ zext64 x) * 0x00000100000001B3) c,
    finish := fun c => (c, c) }

/-- HASH_TICK: finalising changes the accumulator. -/
def hashTick : Hash :=
  { bits := 64, init := 0, absorb := fun c b => c.rotateLeft 7 ^^^ pack8 b,
    finish := fun c => (c + 1, c * 0x9E3779B97F4A7C15) }

/-- HASH_STUCK: one accumulator value, every digest `0xFF`. -/
def hashStuck : Hash := { bits := 0, init := 0, absorb := fun c _ => c, finish := fun c => (c, 0xFF) }

/-- 95 3.2, HASH_ADD, seed 1, second transition: an accumulator reset every call would answer 0x01. -/
theorem test_step_add_keeps_accumulator : transition hashAdd (1, 1) = ((2, 2), 0x02) := by decide
/-- 95 3.2, HASH_FNV, seed 0x0123456789ABCDEF, first transition: most significant byte first. -/
theorem test_step_fnv_feed_order :
    transition hashFnv (0x0123456789ABCDEF, 0xCBF29CE484222325)
      = ((0x9ED00E1AF2C13F65, 0x9ED00E1AF2C13F65), 0x33) := by decide
/-- 95 3.2, HASH_TICK, seed 0, second transition: the accumulator that finalising returns is kept. -/
theorem test_step_tick_keeps_finished : transition hashTick (0, 1) = ((0x1BBCDCBFA53E0A80, 0x81), 0xD5) := by decide
/-- 95 3.4, HASH_ADD, seed 1. -/
theorem test_op_next_u64 : (opNextU64 hashAdd (1, 0)).data = 0x0102040810204080 := by decide
/-- 95 3.4, HASH_ADD, seed 1: the first byte is odd. -/
theorem test_op_next_bool : (opNextBool hashAdd (1, 0)).data = 0 ∧ (opNextBool hashAdd (1, 1)).data = 1 := by decide
/-- 95 3.5, HASH_ADD, seed all ones, bound 2: one draw rejected, the second accepted. -/
theorem test_op_rejection :
    (opNextU64Max hashAdd 2 1 (0xFFFFFFFFFFFFFFFF, 0)) = none
      ∧ (opNextU64Max hashAdd 2 2 (0xFFFFFFFFFFFFFFFF, 0)).map (fun r => (r.data, r.ticks, r.gen.1))
          = some (0, 16, 0xFFFFFFFFFFFF8000) := by decide

/-! ### One tick each: rows of 95_test_vectors.md 3.7 -/

/-- A configuration of a block built with HASH_ADD. -/
def addBlock (state hctx : Word) (seq : Sequencer) : Configuration hashAdd := { state := state, hctx := hctx, seq := seq }

/-- `NEXT_U64`, row 2 to row 3. -/
theorem test_tick_u64_shifts_in :
    (addBlock 2 2 (.busy .u64 6 0x0102 0)).tick = addBlock 4 4 (.busy .u64 5 0x010204 0) := by decide
/-- `NEXT_U64`, row 7 to row 8. -/
theorem test_tick_u64_ends :
    (addBlock 0x40 0x40 (.busy .u64 1 0x0001020408102040 0)).tick
      = addBlock 0x80 0x80 (.resp 0x0102040810204080 false) := by decide
/-- `NEXT_U64_MAX 2`, row 7 to row 8: the draw is rejected and the loop starts again. -/
theorem test_tick_u64max_retries :
    (addBlock 0xFFFFFFFFFFFFFFC0 0xFFFFFFFFFFFFFFC0 (.busy .u64Max 1 0x00000103070F1F3F 2)).tick.seq
      = .busy .u64Max 8 0 2 := by decide
/-- `NEXT_U64_MAX 2`, row 15 to row 16: accepted. -/
theorem test_tick_u64max_accepts :
    (addBlock 0xFFFFFFFFFFFFC000 0xFFFFFFFFFFFFC000 (.busy .u64Max 1 0x00FFFEFCF8F0E0C0 2)).tick
      = addBlock 0xFFFFFFFFFFFF8000 0xFFFFFFFFFFFF8000 (.resp 0 false) := by decide
/-- The bound is inclusive: 95 3.5, HASH_FNV, bound 5, call 2. -/
theorem test_bound_inclusive : finishPull .u64Max 0xE343D96A4261BF2D 5 = .resp 5 false := by decide
/-- Program P1, line 2. -/
theorem test_tick_byte : (addBlock 1 0 (.busy .byte 1 0 0)).tick = addBlock 1 1 (.resp 0x01 false) := by decide
/-- 95 3.4: the byte 0x01 is odd, `NEXT_BOOL` answers 0. -/
theorem test_tick_bool : (addBlock 1 0 (.busy .bool 1 0 0)).tick = addBlock 1 1 (.resp 0 false) := by decide
/-- Program P5, line 6: seeding with the value `STATE` holds is not a no-op. -/
theorem test_reseed_not_noop : (addBlock 1 1 .idle).construct 1 = addBlock 1 0 (.resp 0 false) := by decide

/-! ### One step of the machine each -/

/-- An Idle machine with the reset pair and these inputs. -/
def idleWith (inputs : List PortIn) : State := { State.reset with inputs := inputs }

theorem idleWith_inputs (inputs : List PortIn) : (idleWith inputs).inputs = inputs := rfl

/-- The same in Busy. -/
def busyWith (op : PullOp) (cnt : Nat) (acc maxr : Word) (inputs : List PortIn) : State :=
  { State.reset with seq := .busy op cnt acc maxr, inputs := inputs }

/-- The same in Resp. -/
def respWith (data : Word) (err : Bool) (inputs : List PortIn) : State :=
  { State.reset with seq := .resp data err, inputs := inputs }

/-- The next state of a step, if it has one, read by `f`. -/
def after {α : Type} (o : Host.Outcome State Fault Refusal) (f : State → α) : Option α :=
  match o with
  | .next t => some (f t)
  | .fault _ => none
  | .refused _ => none

theorem test_run_new_default :
    after (step (State.reset.withFetchWord 72 0x00000000000000000)) (fun t => t.seq) = some (.resp 0 false) := by decide
theorem test_run_new_with_seed :
    after (step (State.reset.withFetchWord 72 0x10123456789ABCDEF)) (fun t => t.state)
      = some 0x0123456789ABCDEF := by decide
theorem test_run_next_byte :
    after (step (State.reset.withFetchWord 72 0x2DEADBEEFCAFEF00D)) (fun t => t.seq)
      = some (.busy .byte 1 0 0) := by decide
theorem test_run_next_u64 :
    after (step (State.reset.withFetchWord 72 0x30000000000000000)) (fun t => t.seq)
      = some (.busy .u64 8 0 0) := by decide
theorem test_run_next_u64_max :
    after (step (State.reset.withFetchWord 72 0x40000000000000002)) (fun t => t.seq)
      = some (.busy .u64Max 8 0 2) := by decide
theorem test_run_next_bool :
    after (step (State.reset.withFetchWord 72 0x50000000000000000)) (fun t => t.seq)
      = some (.busy .bool 1 0 0) := by decide
theorem test_run_reserved6 :
    after (step (State.reset.withFetchWord 72 0x60000000000001234)) (fun t => t.seq) = some (.resp 0 true) := by decide
theorem test_run_reserved7 :
    after (step (State.reset.withFetchWord 72 0x7FFFFFFFFFFFFFFFF)) (fun t => t.seq) = some (.resp 0 true) := by decide
/-- Reset wins over a response being taken (60_exceptions.md R155). -/
theorem test_reset_wins :
    (respWith 5 false [⟨true, true, 0, true⟩]).event = .reset
      ∧ (respWith 5 false [⟨true, true, 0, true⟩]).rspValid = false := by decide

/-! ### Every hypothesis is met somewhere -/

theorem witness_ResetEvent : (respWith 5 false [.reset]).pins.rst = true := by decide

theorem witness_HeldReset :
    1 + 1 ≤ (busyWith .byte 1 0 0 [.reset, .reset]).inputs.length
      ∧ ∀ p ∈ (busyWith .byte 1 0 0 [.reset, .reset]).inputs.take 2, p.rst = true := by decide

theorem witness_OpcodeTable :
    ∃ row ∈ opcodeTable, row.fits 0x40000000000000002 = true ∧ row.mnemonic = "NEXT_U64_MAX" := by decide

theorem witness_AssembledLines :
    (Line.newWithSeed 5).wellFormed = true ∧ (Line.nextU64Max (2 ^ 64)).wellFormed = false
      ∧ 2 ^ 64 ≤ (0x10000000000000000 : Nat) := by decide

theorem witness_DecodeEncode :
    decode 0x20000000000000000 = decode 0x2FFFFFFFFFFFFFFFF ∧ opField 0x40000000000000002 = 4
      ∧ opField 0x10000000000000001 = 1 := by decide

theorem witness_Fold : [0x80, 0x40, 0x20, 0x10, 0x08, 0x04, 0x02, 0x01].Perm (be8 0x0102040810204080).toList := by
  decide

theorem witness_LeadingZero :
    (0x8000000000000000 : Word).getLsbD 63 = true ∧ (1 : Word).getLsbD 0 = true
      ∧ (∀ j, 0 < j → (1 : Word).getLsbD j = false) ∧ clz64 1 < 64 := by
  refine ⟨by decide, by decide, fun j hj => ?_, by decide⟩
  by_cases h : j < 64
  · simp; omega
  · exact BitVec.getLsbD_of_ge 1 j (by omega)

theorem witness_Mask : (1 : Word) ≠ 0 ∧ (0x8000000000000000 : Word).getLsbD 63 = true ∧ (0, 64, 0) ∈ maskTable := by
  decide

theorem witness_StepRuns :
    (idleWith [.offer 0x40000000000000002]).seq = .idle ∧ (idleWith [.offer 0x40000000000000002]).pins.rst = false
      ∧ (idleWith [.offer 0x40000000000000002]).pins.cmdValid = true
      ∧ (idleWith [.offer 0x40000000000000002]).event = .accept 0x40000000000000002 := by decide

theorem witness_NotIdle :
    (busyWith .u64 8 0 0 []).seq ≠ .idle ∧ (respWith 0 true []).seq ≠ .idle := by decide

theorem witness_Tick :
    (busyWith .u64Max 1 0 2 []).pins.rst = false ∧ (busyWith .u64Max 1 0 2 []).seq = .busy .u64Max 1 0 2
      ∧ (busyWith .u64 2 7 0 []).seq = .busy .u64 2 7 0 ∧ (busyWith .byte 1 0 0 []).seq = .busy .byte 1 0 0
      ∧ (busyWith .bool 1 0 0 []).seq = .busy .bool 1 0 0
      ∧ (after (step (busyWith .u64Max 1 0 2 [])) (fun t => t.inputs)) = some [] := by decide

theorem witness_Retry :
    ∃ t acc', step (busyWith .u64 8 0 0 []) = .next t ∧ t.seq = .busy .u64 7 acc' 0 :=
  ⟨_, _, rfl, rfl⟩

/-- A draw that is rejected whatever its last byte is. -/
theorem witness_RejectedDraw (g : Gen Config.hash) :
    (busyWith .u64Max 1 0xFFFFFFFFFFFFFF 0x8000000000000000 []).seq
        = .busy .u64Max 1 0xFFFFFFFFFFFFFF 0x8000000000000000
      ∧ (busyWith .u64Max 1 0xFFFFFFFFFFFFFF 0x8000000000000000 []).pins.rst = false
      ∧ 0x8000000000000000 < shiftIn 0xFFFFFFFFFFFFFF (transition Config.hash g).2 &&& mask 0x8000000000000000 := by
  refine ⟨rfl, rfl, ?_⟩
  generalize (transition Config.hash g).2 = b
  rw [show mask 0x8000000000000000 = 0xFFFFFFFFFFFFFFFF by decide]
  have h : (0xFFFFFFFFFFFFFF00 : Nat) ≤ 0xFFFFFFFFFFFFFF00 ||| (zext64 b).toNat := Nat.left_le_or
  rw [show (0xFFFFFFFFFFFFFFFF : Word) = BitVec.allOnes 64 by decide, BitVec.and_allOnes, BitVec.lt_def, shiftIn,
    BitVec.toNat_or, show ((0xFFFFFFFFFFFFFF : Word) <<< 8).toNat = 0xFFFFFFFFFFFFFF00 by decide]
  exact Nat.lt_of_lt_of_le (by decide) h

theorem witness_Response :
    (respWith 3 false [.take]).seq = .resp 3 false ∧ (respWith 3 false [.take]).pins.rst = false
      ∧ (respWith 3 false [.take]).pins.rspReady = true ∧ (respWith 3 false []).pins.rspReady = false := by decide

theorem witness_Waiting :
    (idleWith [.take, .quiet]).noReset 2 = true ∧ (∀ p ∈ (idleWith [.take, .quiet]).inputs.take 2, p.cmdValid = false)
      ∧ (respWith 0 true [.offer 0]).noReset 1 = true
      ∧ (∀ p ∈ (respWith 0 true [.offer 0]).inputs.take 1, p.rspReady = false) := by decide

theorem witness_Outputs :
    (busyWith .u64 8 0 0 []).pins.rst = (busyWith .byte 1 5 6 []).pins.rst ∧ (idleWith []).pins.rst = false := by decide

theorem witness_GeneratorWritten :
    (∃ t, step (idleWith [.reset]) = .next t) ∧ (idleWith [.reset]).event = .reset
      ∧ Takes (idleWith [.offer 0]) .newDefault
      ∧ Takes (idleWith [.offer 0x10000000000000005]) (.newWithSeed 5)
      ∧ (busyWith .byte 1 0 0 []).event = .tick :=
  ⟨⟨_, rfl⟩, by decide, ⟨_, rfl, by decide⟩, ⟨_, rfl, by decide⟩, by decide⟩

theorem witness_IllegalCmd :
    (∃ t, step (idleWith [.offer 0x60000000000000000]) = .next t ∧ t.seq = .resp 0 true)
      ∧ (∃ t, step (respWith 0 true []) = .next t ∧ t.seq = .resp 0 true)
      ∧ opField 0x60000000000000000 = 6 ∧ opField 0x7FFFFFFFFFFFFFFFF = 7 :=
  ⟨⟨_, rfl, by decide⟩, ⟨_, rfl, by decide⟩, by decide, by decide⟩

theorem witness_IllegalCmdPrecise :
    ∃ t, (idleWith [.offer 0x60000000000000000, .take]).noReset 2 = true
      ∧ Runs 2 (idleWith [.offer 0x60000000000000000, .take]) t
      ∧ acceptedWords 2 (idleWith [.offer 0x60000000000000000, .take]) = [0x60000000000000000] ∧ t.seq = .idle :=
  ⟨_, by decide, ⟨_, rfl, _, rfl, rfl⟩, rfl, by decide⟩

theorem witness_Takes :
    Takes (idleWith [.offer 0x20000000000000000]) .nextByte ∧ (idleWith [.offer 0x20000000000000000]).noReset 2 = true
      ∧ Takes (idleWith [.offer 0x50000000000000000]) .nextBool
      ∧ (idleWith [.offer 0x50000000000000000]).noReset 2 = true
      ∧ Takes (idleWith [.offer 0x30000000000000000]) .nextU64
      ∧ (idleWith [.offer 0x30000000000000000]).noReset 9 = true
      ∧ Takes (idleWith [.offer 0x40000000000000002]) (.nextU64Max 2)
      ∧ (idleWith [.offer 0x40000000000000002]).noReset 9 = true :=
  ⟨⟨_, rfl, by decide⟩, by decide, ⟨_, rfl, by decide⟩, by decide, ⟨_, rfl, by decide⟩, by decide,
    ⟨_, rfl, by decide⟩, by decide⟩

/-- Any list of eight bytes is the list of a `Bytes8`. -/
theorem witness_StreamBytes (H : Hash) (g : Gen H) : ∃ b : Bytes8, b.toList = streamBytes H 8 g := by
  match h : streamBytes H 8 g, streamBytes_length H 8 g with
  | [b0, b1, b2, b3, b4, b5, b6, b7], _ => exact ⟨⟨b0, b1, b2, b3, b4, b5, b6, b7⟩, rfl⟩

theorem witness_AllOnesBound :
    mask 0 = 0 ∧ mask 0xFFFFFFFFFFFFFFFF = 0xFFFFFFFFFFFFFFFF
      ∧ Takes (idleWith [.offer 0x40000000000000000]) (.nextU64Max 0)
      ∧ Takes (idleWith [.offer 0x4FFFFFFFFFFFFFFFF]) (.nextU64Max 0xFFFFFFFFFFFFFFFF) :=
  ⟨by decide, by decide, ⟨_, rfl, by decide⟩, ⟨_, rfl, by decide⟩⟩

theorem witness_BoundedAnswer :
    ∃ t, (idleWith [.offer 0x40000000000000000]).noReset 9 = true
      ∧ Runs 9 (idleWith [.offer 0x40000000000000000]) t
      ∧ acceptedWords 9 (idleWith [.offer 0x40000000000000000]) ≠ []
      ∧ deliveredWords 9 (idleWith [.offer 0x40000000000000000]) = [] ∧ t.seq = .resp 0 false := by
  refine ⟨_, by decide, ⟨_, rfl, _, rfl, _, rfl, _, rfl, _, rfl, _, rfl, _, rfl, _, rfl, _, rfl, rfl⟩,
    List.cons_ne_nil _ _, rfl, ?_⟩
  show finishPull .u64Max _ 0 = _
  have h : ∀ v : Word, v &&& mask 0 = 0 := fun v => by rw [show mask 0 = 0 by decide]; simp
  rw [finishPull_accepted (by rw [h]; decide), h]

theorem witness_StuckHash : (∀ h, (hashStuck.finish h).2 = 0xFF) ∧ mask 2 ≠ 2 := ⟨fun _ => rfl, by decide⟩

theorem witness_Nontermination :
    Takes (idleWith [.offer 0x40000000000000002]) (.nextU64Max 2)
      ∧ (idleWith [.offer 0x40000000000000002]).noReset 2 = true
      ∧ ∀ k, k < 1 → ∃ cnt acc, (Configuration.tick^[k]
          ((idleWith [.offer 0x40000000000000002]).toConfiguration.beginPull .u64Max 8 2)).seq
            = .busy .u64Max cnt acc 2 := by
  refine ⟨⟨_, rfl, by decide⟩, by decide, fun k hk => ?_⟩
  obtain rfl : k = 0 := by omega
  exact ⟨_, _, rfl⟩

theorem witness_Scripts :
    (idleWith (streamScript 8 ++ [.quiet])).seq = .idle
      ∧ (idleWith (streamScript 8 ++ [.quiet])).inputs = streamScript 8 ++ [.quiet]
      ∧ (idleWith (hostScript .nextU64 8 ++ [.quiet])).inputs = hostScript .nextU64 8 ++ [.quiet]
      ∧ (idleWith (hostScript .nextBool 1 ++ [.quiet])).inputs = hostScript .nextBool 1 ++ [.quiet]
      ∧ (idleWith (hostScript (.newWithSeed 7) 0 ++ [.quiet])).inputs = hostScript (.newWithSeed 7) 0 ++ [.quiet]
      ∧ (idleWith (hostScript .newDefault 0 ++ [.quiet])).inputs = hostScript .newDefault 0 ++ [.quiet]
      ∧ (idleWith (.reset :: [.quiet])).inputs = .reset :: [.quiet] :=
  ⟨rfl, idleWith_inputs _, idleWith_inputs _, idleWith_inputs _, idleWith_inputs _, idleWith_inputs _,
    idleWith_inputs _⟩

/-- Runs of the lengths that the statements about constructions speak of. -/
theorem witness_Reseeding :
    (∃ t, Runs 2 (idleWith (hostScript (.newWithSeed 7) 0)) t) ∧ (∃ t, Runs 2 (idleWith (hostScript .newDefault 0)) t)
      ∧ ∃ t, Runs 1 (idleWith [.reset]) t :=
  ⟨⟨_, _, rfl, _, rfl, rfl⟩, ⟨_, _, rfl, _, rfl, rfl⟩, ⟨_, _, rfl, rfl⟩⟩

theorem witness_Invariant :
    (busyWith .u64 3 0x0102030405 0 []).wf = true ∧ (busyWith .u64 0 0 0 []).wf = false
      ∧ (busyWith .byte 1 0 5 []).wf = false ∧ ∃ t, step (busyWith .u64 3 0x0102030405 0 []) = .next t :=
  ⟨by decide, by decide, by decide, ⟨_, rfl⟩⟩

theorem witness_Refinement :
    Takes (idleWith [.offer 0x30000000000000000]) .nextU64
      ∧ (∃ r, operate Config.hash Config.rngSeed 0 .nextU64 (Config.rngSeed, Config.hash.init) = some r ∧ r.ticks = 8)
      ∧ (idleWith [.offer 0x30000000000000000]).noReset 9 = true :=
  ⟨⟨_, rfl, by decide⟩, ⟨_, rfl, rfl⟩, by decide⟩

/-- A run to Idle, one to Resp and one to Busy, all without reset. -/
theorem witness_Runs :
    (∃ t, Runs 2 (idleWith [.offer 0x10000000000000005, .take]) t ∧ t.seq = .idle)
      ∧ (∃ t, Runs 1 (idleWith [.offer 0x10000000000000005, .take]) t ∧ t.seq = .resp 0 false)
      ∧ (∃ t, Runs 1 (idleWith [.offer 0x30000000000000000]) t ∧ t.seq = .busy .u64 8 0 0)
      ∧ (idleWith [.offer 0x10000000000000005, .take]).noReset 2 = true :=
  ⟨⟨_, ⟨_, rfl, _, rfl, rfl⟩, rfl⟩, ⟨_, ⟨_, rfl, rfl⟩, rfl⟩, ⟨_, ⟨_, rfl, rfl⟩, rfl⟩, by decide⟩

/-- Two hosts that offer the same word at different moments. -/
theorem witness_Timing :
    ∃ t t', Runs 2 (idleWith [.offer 0x10000000000000005, .take]) t
      ∧ Runs 4 (idleWith [.quiet, .offer 0x10000000000000005, .quiet, .take]) t'
      ∧ acceptedWords 2 (idleWith [.offer 0x10000000000000005, .take])
          = acceptedWords 4 (idleWith [.quiet, .offer 0x10000000000000005, .quiet, .take])
      ∧ (idleWith [.quiet, .offer 0x10000000000000005, .quiet, .take]).noReset 4 = true
      ∧ t.seq = .idle ∧ t'.seq = .idle :=
  ⟨_, _, ⟨_, rfl, _, rfl, rfl⟩, ⟨_, rfl, _, rfl, _, rfl, _, rfl, rfl⟩, rfl, by decide, rfl, rfl⟩

end Sys2Proof.Tests
end

section
/-! The outputs of an Idle block, and the values after reset (10_state.md R31, R33). -/

namespace Sys2Proof.Machine

/-- An Idle block is ready for a command exactly when `rst` is not asserted (44_sequencer.md R134). -/
theorem State.cmdReady_of_idle {s : State} (h : s.seq = .idle) : s.cmdReady = !s.pins.rst := by
  simp [State.cmdReady, Sequencer.isIdle, h]

/-- An Idle block offers no response (44_sequencer.md R134). -/
theorem State.rspValid_of_idle {s : State} (h : s.seq = .idle) : s.rspValid = false := by
  simp [State.rspValid, Sequencer.isResp, h]

/-- An Idle block is not busy (10_state.md R31). -/
theorem State.busy_of_idle {s : State} (h : s.seq = .idle) : s.busy = false := by
  simp [State.busy, Sequencer.isIdle, h]

/-- Settles O1: the configuration after reset is `afterReset`, and its sequencer is Idle whatever the host drives,
so the outputs are those of an Idle block. -/
theorem resetValues : Obligations.ResetValues := by
  unfold Obligations.ResetValues
  have hseq : State.reset.seq = .idle := by
    rw [State.reset_toConfiguration, Configuration.afterReset_seq]
  refine ⟨?_, ?_, hseq, ?_⟩
  · rw [State.reset_toConfiguration, Configuration.afterReset_state]
  · rw [State.reset_toConfiguration, Configuration.afterReset_hctx]
  · intro inputs s
    have hs : s.seq = .idle := hseq
    refine ⟨fun hrst => ?_, State.rspValid_of_idle hs, State.busy_of_idle hs⟩
    rw [State.cmdReady_of_idle hs, hrst, Bool.not_false]

end Sys2Proof.Machine
end

section
/-! The packing order of pulled bytes (20_memory.md R43), and the run of a whole pull (44_sequencer.md R128 to R130). -/

open Sys2Proof.Claims

namespace Sys2Proof.Machine

/-! ### Packing -/

/-- The packing step in the words of 20_memory.md R43. -/
theorem shiftIn_eq (r : Word) (x : Byte) : shiftIn r x = (r <<< 8) ||| x.setWidth 64 := rfl

/-- The byte shifted in last stands in bits 7:0. -/
theorem shiftIn_lowByte (r : Word) (x : Byte) : (shiftIn r x).extractLsb' 0 8 = x := by
  apply BitVec.eq_of_getLsbD_eq
  intro i hi
  simp [shiftIn_eq, hi, Nat.lt_trans hi]

/-- A packing step moves every byte that stays in the word up by one byte position. -/
theorem shiftIn_upperByte (r : Word) (x : Byte) {k : Nat} (hk : k + 16 ≤ 64) :
    (shiftIn r x).extractLsb' (k + 8) 8 = r.extractLsb' k 8 := by
  apply BitVec.eq_of_getLsbD_eq
  intro i hi
  have hin : k + 8 + i < 64 := by omega
  have hup : ¬ k + 8 + i < 8 := by omega
  have hx : x.getLsbD (k + 8 + i) = false := BitVec.getLsbD_of_ge x _ (by omega)
  have hidx : k + 8 + i - 8 = k + i := by omega
  simp only [shiftIn_eq, BitVec.getLsbD_extractLsb', BitVec.getLsbD_or, BitVec.getLsbD_shiftLeft,
    BitVec.getLsbD_setWidth, hi, hin, hup, hx, hidx, decide_true, decide_false, Bool.not_false, Bool.and_false,
    Bool.true_and, Bool.or_false]

/-- The first packing step, from 0, widens the byte. -/
theorem shiftIn_zero (x : Byte) : shiftIn 0 x = x.setWidth 64 := by
  simp [shiftIn_eq]

/-- A packing step appends its byte below the bits already held, and truncates. -/
theorem shiftIn_setWidth {w : Nat} (x : BitVec w) (y : Byte) :
    shiftIn (x.setWidth 64) y = (x ++ y).setWidth 64 := by
  apply BitVec.eq_of_getLsbD_eq
  intro i hi
  by_cases hlow : i < 8
  · simp [shiftIn_eq, BitVec.getLsbD_append, hi, hlow]
  · have hy : y.getLsbD i = false := BitVec.getLsbD_of_ge y _ (by omega)
    simp [shiftIn_eq, BitVec.getLsbD_append, hi, hlow, hy]

/-- Eight packing steps leave the eight bytes in the word, the first on top, whatever the word held before. -/
theorem holdsBigEndian_foldl_shiftIn (r : Word) (b : Bytes8) : HoldsBigEndian (b.toList.foldl shiftIn r) b := by
  simp [HoldsBigEndian, Bytes8.toList, shiftIn_lowByte,
    shiftIn_upperByte _ _ (k := 0), shiftIn_upperByte _ _ (k := 8), shiftIn_upperByte _ _ (k := 16),
    shiftIn_upperByte _ _ (k := 24), shiftIn_upperByte _ _ (k := 32), shiftIn_upperByte _ _ (k := 40),
    shiftIn_upperByte _ _ (k := 48)]

/-- The packing loop from 0 is the concatenation (42_byte_extraction.md R92). -/
theorem foldl_shiftIn_eq_pack8 (b : Bytes8) : b.toList.foldl shiftIn 0 = pack8 b := by
  simp only [Bytes8.toList, List.foldl_cons, List.foldl_nil, shiftIn_zero, shiftIn_setWidth]
  exact BitVec.setWidth_eq (pack8 b)

/-! ### The run of a pull -/

/-- A command that is taken has its acceptance effect in this step (44_sequencer.md R128). -/
theorem step_of_takes {s : State} {i : Instr} (h : Takes s i) :
    s.seq = .idle ∧ s.pins.rst = false ∧ step s = .next (s.sampled.mapConfiguration (acceptEffect i)) := by
  obtain ⟨w, hw, rfl⟩ := h
  obtain ⟨hidle, hrst, -, -⟩ := idle_of_accept hw
  exact ⟨hidle, hrst, step_accept hw hidle⟩

/-- A Busy block without reset makes a tick in this step. -/
theorem step_of_busy {s : State} {op : PullOp} {cnt : Nat} {acc maxr : Word} (hr : s.pins.rst = false)
    (hs : s.seq = .busy op cnt acc maxr) : step s = .next s.sampled.tickBlock :=
  step_tick (event_of_busy hr hs)

/-- A reset-free run: no reset in this step, and none after it. -/
theorem noReset_succ_iff {n : Nat} {s t : State} (h : t.inputs = s.inputs.tail) :
    s.noReset (n + 1) = true ↔ s.pins.rst = false ∧ t.noReset n = true := by
  rw [noReset_succ h, Bool.and_eq_true, Bool.not_eq_true']

/-- With `n + 1` bytes to pull and no reset, `n + 1` steps shift the stream's next bytes in, in order, and end the
pull (44_sequencer.md R129, R130). -/
theorem runs_pull {n : Nat} {s : State} {op : PullOp} {acc maxr : Word} (hs : s.seq = .busy op (n + 1) acc maxr)
    (hr : s.noReset (n + 1) = true) :
    ∃ t, Runs (n + 1) s t ∧ t.gen = afterTransitions Config.hash (n + 1) s.gen
      ∧ t.seq = finishPull op ((streamBytes Config.hash (n + 1) s.gen).foldl shiftIn acc) maxr := by
  induction n generalizing s acc with
  | zero =>
    obtain ⟨hrst, -⟩ := (noReset_succ_iff (t := s.sampled.tickBlock) rfl).mp hr
    refine ⟨s.sampled.tickBlock, runs_succ.mpr ⟨_, step_of_busy hrst hs, rfl⟩, ?_, ?_⟩
    · exact Configuration.tick_busy_gen hs
    · exact (Configuration.tick_busy_seq hs).trans (advancePull_last op _ maxr le_rfl)
  | succ n ih =>
    obtain ⟨hrst, hrest⟩ := (noReset_succ_iff (t := s.sampled.tickBlock) rfl).mp hr
    have hgen : s.sampled.tickBlock.gen = (transition Config.hash s.gen).1 := Configuration.tick_busy_gen hs
    have hseq : s.sampled.tickBlock.seq = .busy op (n + 1) (shiftIn acc (transition Config.hash s.gen).2) maxr :=
      (Configuration.tick_busy_seq hs).trans (advancePull_more op _ maxr (by omega))
    obtain ⟨t, hrun, htgen, htseq⟩ := ih hseq hrest
    rw [hgen] at htgen htseq
    exact ⟨t, runs_succ.mpr ⟨_, step_of_busy hrst hs, hrun⟩, htgen, htseq⟩

/-- A taken command that starts a pull of `n + 1` bytes comes to the end of the pull in `n + 2` steps: its acceptance
and one tick a byte. -/
theorem runs_of_takes_pull {n : Nat} {s : State} {i : Instr} {op : PullOp} {maxr : Word} (h : Takes s i)
    (hi : acceptEffect i = .beginPull op (n + 1) maxr) (hr : s.noReset (n + 2) = true) :
    ∃ t, Runs (n + 2) s t ∧ t.gen = afterTransitions Config.hash (n + 1) s.gen
      ∧ t.seq = finishPull op ((streamBytes Config.hash (n + 1) s.gen).foldl shiftIn 0) maxr := by
  obtain ⟨-, -, hstep⟩ := step_of_takes h
  rw [hi] at hstep
  obtain ⟨-, hrest⟩ := (noReset_succ_iff (step_cases hstep).1).mp hr
  obtain ⟨t, hrun, htgen, htseq⟩ := runs_pull (Configuration.beginPull_seq _ op (n + 1) maxr) hrest
  exact ⟨t, runs_succ.mpr ⟨_, hstep, hrun⟩, htgen, htseq⟩

/-- `NEXT_U64` offers, after its eight ticks, the stream's next eight bytes shifted into 0 (42_byte_extraction.md R91). -/
theorem runs_nextU64 {s : State} (h : Takes s .nextU64) (hr : s.noReset 9 = true) :
    ∃ t, Runs 9 s t ∧ t.gen = afterTransitions Config.hash 8 s.gen
      ∧ t.seq = .resp ((streamBytes Config.hash 8 s.gen).foldl shiftIn 0) false :=
  runs_of_takes_pull h rfl hr

/-- Settles O9: eight packing steps put each byte in its place, the loop from 0 is `PACK8`, and what a machine that
takes `NEXT_U64` offers is that loop over the bytes it pulled. -/
theorem packingOrderBigEndian : Obligations.PackingOrderBigEndian := by
  unfold Obligations.PackingOrderBigEndian
  refine ⟨shiftIn_eq, fun b => ⟨holdsBigEndian_foldl_shiftIn 0 b, ?_⟩, fun s b htakes hr hb => ?_⟩
  · rw [← foldl_shiftIn_eq_pack8]
    exact holdsBigEndian_foldl_shiftIn 0 b
  · obtain ⟨t, hrun, -, hseq⟩ := runs_nextU64 htakes hr
    have hbytes : streamBytes Config.hash 8 s.gen = b.toList := hb.symm
    refine ⟨t, b.toList.foldl shiftIn 0, hrun, ?_, holdsBigEndian_foldl_shiftIn 0 b⟩
    rw [hseq, hbytes]

end Sys2Proof.Machine
end

section
/-! The XOR fold of a word to one byte (41_core_step.md R81). -/

namespace Sys2Proof.Machine

/-- The fold in the words of 41_core_step.md R81. -/
theorem fold8_eq (v : Word) :
    fold8 v = v.extractLsb' 56 8 ^^^ v.extractLsb' 48 8 ^^^ v.extractLsb' 40 8 ^^^ v.extractLsb' 32 8
      ^^^ v.extractLsb' 24 8 ^^^ v.extractLsb' 16 8 ^^^ v.extractLsb' 8 8 ^^^ v.extractLsb' 0 8 := rfl

/-- Bit `k` of the byte at bit `i` of a word is bit `k + i` of the word, written with the offset last as in R81. -/
theorem getLsbD_byteAt (v : Word) (k : Nat) {i : Nat} (hi : i < 8) :
    (v.extractLsb' k 8).getLsbD i = v.getLsbD (i + k) := by
  rw [BitVec.getLsbD_extractLsb', decide_eq_true hi, Bool.true_and, Nat.add_comm]

/-- The fold bit by bit (R81): a bit of each byte, the lowest byte first. -/
theorem getLsbD_fold8 (v : Word) {i : Nat} (hi : i < 8) :
    (fold8 v).getLsbD i = (v.getLsbD i ^^ v.getLsbD (i + 8) ^^ v.getLsbD (i + 16) ^^ v.getLsbD (i + 24)
      ^^ v.getLsbD (i + 32) ^^ v.getLsbD (i + 40) ^^ v.getLsbD (i + 48) ^^ v.getLsbD (i + 56)) := by
  simp only [fold8_eq, BitVec.getLsbD_xor, getLsbD_byteAt _ _ hi, Nat.add_zero]
  simp only [Bool.xor_comm, Bool.xor_assoc]

/-- The exclusive-or of eight bytes is a left fold over them, first to last, from 0. -/
theorem foldl_xor_toList (b : Bytes8) : b.toList.foldl (· ^^^ ·) 0 = xorBytes b := by
  simp [Bytes8.toList, xorBytes]

/-- The order of the bytes does not matter (20_memory.md R42). -/
theorem foldl_xor_of_perm {b : Bytes8} {l : List Byte} (h : l.Perm b.toList) :
    l.foldl (· ^^^ ·) 0 = xorBytes b := by
  have hcomm : RightCommutative (fun x y : Byte => x ^^^ y) := ⟨fun x y z => by ac_rfl⟩
  rw [h.foldl_eq 0, foldl_xor_toList]

/-- A byte alone in bits 7:0 is its own fold, so the fold reaches every byte. -/
theorem fold8_zext64 (b : Byte) : fold8 (zext64 b) = b := by
  apply BitVec.eq_of_getLsbD_eq
  intro i hi
  have hlow : (zext64 b).getLsbD i = b.getLsbD i := by
    simp [zext64, Nat.lt_trans hi]
  have hhigh : ∀ k, 8 ≤ k → (zext64 b).getLsbD (i + k) = false := fun k hk => by
    simp [zext64, BitVec.getLsbD_of_ge b (i + k) (by omega)]
  simp [getLsbD_fold8 _ hi, hlow, hhigh]

/-- Flipping every bit flips each bit of the fold eight times, that is, not at all: a word and its complement fold
alike. -/
theorem fold8_not (v : Word) : fold8 (~~~v) = fold8 v := by
  apply BitVec.eq_of_getLsbD_eq
  intro i hi
  have hflip : ∀ k, k ≤ 56 → (~~~v).getLsbD (i + k) = !v.getLsbD (i + k) := fun k hk => by
    simp [show i + k < 64 by omega]
  have hflip0 : (~~~v).getLsbD i = !v.getLsbD i := hflip 0 (by omega)
  simp [getLsbD_fold8 _ hi, hflip, hflip0]

/-- No word is its own complement: bit 0 differs. -/
theorem word_ne_not (v : Word) : v ≠ ~~~v := by
  intro h
  have hbit : v.getLsbD 0 = (~~~v).getLsbD 0 := congrArg (·.getLsbD 0) h
  simp at hbit

/-- Settles O11: the formula is the definition; the bitwise form and the order independence follow from exclusive-or
being associative and commutative; and every byte is the fold of its zero-extension and of the complement of that. -/
theorem foldIsXorOfBytes : Obligations.FoldIsXorOfBytes := by
  unfold Obligations.FoldIsXorOfBytes
  refine ⟨fold8_eq, fun v i hi => getLsbD_fold8 v hi, fun v l hl => foldl_xor_of_perm hl,
    by decide, by decide, by decide, by decide, by decide, by decide, fun b => ?_⟩
  exact ⟨zext64 b, ~~~(zext64 b), word_ne_not _, fold8_zext64 b, (fold8_not _).trans (fold8_zext64 b)⟩

end Sys2Proof.Machine
end

section
/-! The leading-zero count and the mask of the rejection selector (43_rejection_selector.md R110 to R113). -/

open Sys2Proof.Claims

namespace Sys2Proof.Machine

/-! ### The count below a bit position -/

/-- A 1 at bit `k` ends the count at once. -/
theorem zerosBelow_of_set {v : Word} {k : Nat} (h : v.getLsbD k = true) : zerosBelow v (k + 1) = 0 := by
  simp [zerosBelow, h]

/-- A 0 at bit `k` is counted, and the count goes on below it. -/
theorem zerosBelow_of_clear {v : Word} {k : Nat} (h : v.getLsbD k = false) :
    zerosBelow v (k + 1) = zerosBelow v k + 1 := by
  simp [zerosBelow, h]

/-- No more bits are counted than there are. -/
theorem zerosBelow_le (v : Word) (k : Nat) : zerosBelow v k ≤ k := by
  induction k with
  | zero => exact le_rfl
  | succ k ih =>
    cases hk : v.getLsbD k with
    | true => rw [zerosBelow_of_set hk]; exact Nat.zero_le _
    | false => rw [zerosBelow_of_clear hk]; exact Nat.succ_le_succ ih

/-- The bits counted are 0. -/
theorem getLsbD_of_zerosBelow_le {v : Word} {k j : Nat} (hlow : k - zerosBelow v k ≤ j) (hj : j < k) :
    v.getLsbD j = false := by
  induction k with
  | zero => exact absurd hj (Nat.not_lt_zero j)
  | succ k ih =>
    cases hk : v.getLsbD k with
    | true => rw [zerosBelow_of_set hk] at hlow; omega
    | false =>
      rw [zerosBelow_of_clear hk] at hlow
      obtain rfl | hne := eq_or_ne j k
      · exact hk
      · exact ih (by omega) (by omega)

/-- The count stops at a 1, unless it runs through all the bits. -/
theorem getLsbD_zerosBelow {v : Word} {k : Nat} (h : zerosBelow v k < k) :
    v.getLsbD (k - 1 - zerosBelow v k) = true := by
  induction k with
  | zero => exact absurd h (Nat.not_lt_zero _)
  | succ k ih =>
    cases hk : v.getLsbD k with
    | true => rwa [zerosBelow_of_set hk]
    | false =>
      rw [zerosBelow_of_clear hk] at h ⊢
      have hidx : k + 1 - 1 - (zerosBelow v k + 1) = k - 1 - zerosBelow v k := by omega
      rw [hidx]
      exact ih (by omega)

/-! ### The leading-zero count -/

/-- The leading-zero count has the 65 values 0 to 64 (R110). -/
theorem clz64_le (v : Word) : clz64 v ≤ 64 := zerosBelow_le v 64

/-- The bits that the leading-zero count counts are 0, as are those above the word. -/
theorem getLsbD_of_clz64_le {v : Word} {j : Nat} (h : 64 - clz64 v ≤ j) : v.getLsbD j = false := by
  by_cases hj : j < 64
  · exact getLsbD_of_zerosBelow_le h hj
  · exact BitVec.getLsbD_of_ge v j (by omega)

/-- The bit below the leading zeros is the highest set bit. -/
theorem getLsbD_clz64 {v : Word} (h : clz64 v < 64) : v.getLsbD (63 - clz64 v) = true := getLsbD_zerosBelow h

/-- A set bit stands below the leading zeros. -/
theorem lt_sub_clz64_of_getLsbD {v : Word} {j : Nat} (h : v.getLsbD j = true) : j < 64 - clz64 v := by
  by_contra hle
  exact Bool.false_ne_true ((getLsbD_of_clz64_le (not_lt.mp hle)).symm.trans h)

/-- The leading-zero count by the index of the highest set bit (R110). -/
theorem clz64_of_highest {v : Word} {h : Nat} (hset : v.getLsbD h = true)
    (habove : ∀ j, h < j → v.getLsbD j = false) : clz64 v = 63 - h := by
  have hlt : h < 64 - clz64 v := lt_sub_clz64_of_getLsbD hset
  have htop : v.getLsbD (63 - clz64 v) = true := getLsbD_clz64 (by omega)
  have hge : ¬ h < 63 - clz64 v := fun hh => Bool.false_ne_true ((habove _ hh).symm.trans htop)
  omega

/-- A bit position is below the leading zeros exactly when some set bit stands at or above it. -/
theorem lt_sub_clz64_iff {v : Word} {i : Nat} : i < 64 - clz64 v ↔ ∃ d < 64, v.getLsbD (i + d) = true := by
  constructor
  · intro hi
    have hidx : i + (63 - clz64 v - i) = 63 - clz64 v := by omega
    refine ⟨63 - clz64 v - i, by omega, ?_⟩
    rw [hidx]
    exact getLsbD_clz64 (by omega)
  · rintro ⟨d, -, hd⟩
    exact lt_of_le_of_lt (Nat.le_add_right i d) (lt_sub_clz64_of_getLsbD hd)

/-- No bit of 0 is set, so all 64 are counted. -/
theorem clz64_zero : clz64 0 = 64 := by
  by_contra hne
  have htop : (0 : Word).getLsbD (63 - clz64 0) = true := getLsbD_clz64 (lt_of_le_of_ne (clz64_le 0) hne)
  simp at htop

/-- With bit 63 set there is no leading zero. -/
theorem clz64_of_msb {v : Word} (h : v.getLsbD 63 = true) : clz64 v = 0 := zerosBelow_of_set h

/-- Settles O12: the count's bits are 0 and the bit below them is 1, which determine it by the highest set bit. -/
theorem leadingZeroCount : Obligations.LeadingZeroCount := by
  unfold Obligations.LeadingZeroCount
  refine ⟨clz64_zero, fun v => ⟨clz64_le v, fun j hj => getLsbD_of_clz64_le hj, getLsbD_clz64⟩,
    fun v h hset habove => clz64_of_highest hset habove, ?_⟩
  decide

/-! ### The mask and its smear form -/

/-- The mask bit by bit: the 1s span the highest set bit of the bound down to bit 0 (R111). -/
theorem getLsbD_mask (v : Word) (i : Nat) : (mask v).getLsbD i = decide (i < 64 - clz64 v) := by
  rw [mask, BitVec.getLsbD_ofNat, Nat.testBit_two_pow_sub_one, Bool.and_eq_right_iff_imp, decide_eq_true_iff,
    decide_eq_true_iff]
  omega

/-- Each bit of `m` is the disjunction of `n` bits of `v`, from its own position up. -/
def SmearsTo (v m : Word) (n : Nat) : Prop :=
  ∀ i, m.getLsbD i = true ↔ ∃ d < n, v.getLsbD (i + d) = true

/-- A word is its own smear over one bit. -/
theorem smearsTo_self (v : Word) : SmearsTo v v 1 := by
  intro i
  simp

/-- One line of the smear form doubles the number of bits smeared (R111). -/
theorem SmearsTo.double {v m : Word} {n : Nat} (h : SmearsTo v m n) : SmearsTo v (m ||| (m >>> n)) (n + n) := by
  intro i
  rw [BitVec.getLsbD_or, BitVec.getLsbD_ushiftRight, Bool.or_eq_true, h i, h (n + i)]
  constructor
  · rintro (⟨d, hd, hbit⟩ | ⟨d, hd, hbit⟩)
    · exact ⟨d, by omega, hbit⟩
    · have hidx : n + i + d = i + (n + d) := by omega
      exact ⟨n + d, by omega, hidx ▸ hbit⟩
  · rintro ⟨d, hd, hbit⟩
    by_cases hdn : d < n
    · exact .inl ⟨d, hdn, hbit⟩
    · have hidx : i + d = n + i + (d - n) := by omega
      exact .inr ⟨d - n, by omega, hidx ▸ hbit⟩

/-- The six lines of the smear form smear over all 64 bits. -/
theorem smearsTo_smear (v : Word) : SmearsTo v (smear v) 64 :=
  (smearsTo_self v).double.double.double.double.double.double

/-- The mask is the bound smeared over all 64 bits. -/
theorem smearsTo_mask (v : Word) : SmearsTo v (mask v) 64 := by
  intro i
  rw [getLsbD_mask, decide_eq_true_iff, lt_sub_clz64_iff]

/-- The smear form is exact everywhere (R113). -/
theorem smear_eq_mask (v : Word) : smear v = mask v :=
  BitVec.eq_of_getLsbD_eq fun i _ => Bool.eq_iff_iff.mpr ((smearsTo_smear v i).trans (smearsTo_mask v i).symm)

/-- The mask of 0 is 0 (R112). -/
theorem mask_zero : mask 0 = 0 := by
  rw [mask, clz64_zero]
  rfl

/-- The mask of a bound with bit 63 set is all ones (R113). -/
theorem mask_of_msb {v : Word} (h : v.getLsbD 63 = true) : mask v = 0xFFFFFFFFFFFFFFFF := by
  rw [mask, clz64_of_msb h]
  rfl

/-- Settles O13: both boundaries by the leading-zero count there, and the smear form by its six doublings. -/
theorem maskAtBoundaries : Obligations.MaskAtBoundaries := by
  unfold Obligations.MaskAtBoundaries
  refine ⟨clz64_zero, mask_zero, fun r => ?_, fun v hv => ⟨clz64_of_msb hv, mask_of_msb hv⟩, smear_eq_mask⟩
  rw [mask_zero]
  exact BitVec.and_zero

end Sys2Proof.Machine
end

section
/-! The tick of a pull and the retry of a rejected draw (44_sequencer.md R129 to R131). -/

namespace Sys2Proof.Machine

/-- The selector's comparison is the unsigned order on words (43_rejection_selector.md R115). -/
theorem accepts_iff (v max : Word) : accepts v max = true ↔ v ≤ max := decide_eq_true_iff

/-- The selector rejects exactly the candidates above the bound. -/
theorem accepts_eq_false_iff (v max : Word) : accepts v max = false ↔ max < v := by
  rw [← Bool.not_eq_true, accepts_iff, BitVec.not_le]

/-- The end of a one-byte pull answered by its parity, by bit 0 of the byte (44_sequencer.md R130). -/
theorem finishPull_bool (acc maxr : Word) :
    finishPull .bool acc maxr = .resp (if acc.getLsbD 0 then 0 else 1) false := by
  rw [finishPull, isEven]
  cases acc.getLsbD 0 <;> rfl

/-- The end of a draw, by the comparison with its bound (44_sequencer.md R130). -/
theorem finishPull_u64Max (acc maxr : Word) :
    finishPull .u64Max acc maxr =
      if acc &&& mask maxr ≤ maxr then .resp (acc &&& mask maxr) false else .busy .u64Max 8 0 maxr := by
  by_cases hle : acc &&& mask maxr ≤ maxr
  · rw [if_pos hle, finishPull_accepted ((accepts_iff _ _).mpr hle)]
  · rw [if_neg hle, finishPull_rejected ((accepts_eq_false_iff _ _).mpr (BitVec.not_le.mp hle))]

/-- A tick that leaves the sequencer in Busy keeps `OP` and `MAXR`, and either counts down or retries a rejected draw
(44_sequencer.md R131). -/
theorem advancePull_busy_cases {op op' : PullOp} {cnt cnt' : Nat} {acc acc' maxr maxr' : Word}
    (h : advancePull op cnt acc maxr = .busy op' cnt' acc' maxr') :
    op' = op ∧ maxr' = maxr
      ∧ ((1 < cnt ∧ cnt' = cnt - 1 ∧ acc' = acc)
          ∨ (cnt ≤ 1 ∧ op = .u64Max ∧ cnt' = 8 ∧ acc' = 0 ∧ maxr < acc &&& mask maxr)) := by
  rcases Nat.lt_or_ge 1 cnt with hmore | hlast
  · rw [advancePull_more op acc maxr hmore] at h
    cases h
    exact ⟨rfl, rfl, .inl ⟨hmore, rfl, rfl⟩⟩
  · rw [advancePull_last op acc maxr hlast] at h
    rcases finishPull_cases op acc maxr with ⟨data, hresp⟩ | ⟨rfl, hrej, hretry⟩
    · rw [hresp] at h
      cases h
    · rw [hretry] at h
      cases h
      exact ⟨rfl, rfl, .inr ⟨hlast, rfl, rfl, rfl, (accepts_eq_false_iff _ _).mp hrej⟩⟩

/-- The state that a tick leaves when its pull goes to `q`: STEP has run on (`STATE`, `HCTX`) (44_sequencer.md R129). -/
def State.tickedTo (s : State) (q : Sequencer) : State :=
  { state := (transition Config.hash s.gen).1.1, hctx := (transition Config.hash s.gen).1.2, seq := q,
    inputs := s.inputs.tail }

/-- A step in Busy without reset runs STEP and advances the pull by the byte (44_sequencer.md R129). -/
theorem step_busy {s : State} {op : PullOp} {cnt : Nat} {acc maxr : Word} (hr : s.pins.rst = false)
    (hs : s.seq = .busy op cnt acc maxr) :
    step s = .next (s.tickedTo (advancePull op cnt (shiftIn acc (transition Config.hash s.gen).2) maxr)) := by
  have htick : s.sampled.tickBlock
      = s.tickedTo (advancePull op cnt (shiftIn acc (transition Config.hash s.gen).2) maxr) :=
    State.ext_parts (Configuration.tick_busy hs) rfl
  rw [step_of_busy hr hs, htick]

/-- With more than one byte to pull, the step counts down. -/
theorem step_busy_more {s : State} {op : PullOp} {cnt : Nat} {acc maxr : Word} (hr : s.pins.rst = false)
    (hs : s.seq = .busy op cnt acc maxr) (hcnt : 1 < cnt) :
    step s = .next (s.tickedTo (.busy op (cnt - 1) (shiftIn acc (transition Config.hash s.gen).2) maxr)) := by
  rw [step_busy hr hs, advancePull_more op _ maxr hcnt]

/-- With the last byte of a pull, the step ends it. -/
theorem step_busy_last {s : State} {op : PullOp} {cnt : Nat} {acc maxr : Word} (hr : s.pins.rst = false)
    (hs : s.seq = .busy op cnt acc maxr) (hcnt : cnt ≤ 1) :
    step s = .next (s.tickedTo (finishPull op (shiftIn acc (transition Config.hash s.gen).2) maxr)) := by
  rw [step_busy hr hs, advancePull_last op _ maxr hcnt]

/-- The last tick of a rejected draw starts the draw again, `ACC` cleared and `MAXR` kept (44_sequencer.md R131). -/
theorem step_busy_retry {s : State} {cnt : Nat} {acc maxr : Word} (hr : s.pins.rst = false)
    (hs : s.seq = .busy .u64Max cnt acc maxr) (hcnt : cnt ≤ 1)
    (hrej : maxr < shiftIn acc (transition Config.hash s.gen).2 &&& mask maxr) :
    step s = .next (s.tickedTo (.busy .u64Max 8 0 maxr)) := by
  rw [step_busy_last hr hs hcnt, finishPull_rejected ((accepts_eq_false_iff _ _).mpr hrej)]

/-- A step that ends outside Idle was no reset (44_sequencer.md R133). -/
theorem rst_of_step_not_idle {s t : State} (h : step s = .next t) (ht : t.seq ≠ .idle) : s.pins.rst = false := by
  obtain ⟨-, ⟨-, -, hc⟩ | ⟨_, -, hr, -⟩ | ⟨_, _, _, _, -, hr, -⟩ | ⟨_, _, -, hr, -⟩ | ⟨-, hr, -⟩⟩ := step_cases h
  · exact absurd (by rw [hc, Configuration.afterReset_seq]) ht
  all_goals exact hr

/-- Settles O21: a step from Busy to Busy is a tick, and `advancePull_busy_cases` says where it leads; the last tick of
a rejected draw is the retry. -/
theorem retryIsOnlyBackwardEdge : Obligations.RetryIsOnlyBackwardEdge := by
  unfold Obligations.RetryIsOnlyBackwardEdge
  refine ⟨fun s t op op' cnt cnt' acc acc' maxr maxr' hstep hs ht => ?_, fun s cnt acc maxr hr hs hcnt hrej => ?_⟩
  · have hr : s.pins.rst = false := rst_of_step_not_idle hstep (by rw [ht]; nofun)
    rw [step_busy hr hs] at hstep
    cases hstep
    obtain ⟨hop, hmaxr, hcount⟩ := advancePull_busy_cases ht
    exact ⟨hop, hmaxr, rfl, hcount.imp_left fun ⟨hmore, hdown, _⟩ => ⟨hmore, hdown⟩⟩
  · exact step_busy_retry hr hs hcnt hrej

/-- Settles O20: the tick counts down while bytes are left, and ends by the kind of the pull. -/
theorem tickAdvancesPull : Obligations.TickAdvancesPull := by
  unfold Obligations.TickAdvancesPull
  intro s op cnt acc maxr hr hs
  refine ⟨step_busy_more hr hs, fun hcnt => ?_⟩
  have hlast := step_busy_last hr hs hcnt
  refine ⟨?_, ?_, ?_, ?_⟩
  · rintro rfl
    exact hlast
  · rintro rfl
    rw [finishPull_bool] at hlast
    exact hlast
  · rintro rfl
    exact hlast
  · rintro rfl
    rw [finishPull_u64Max] at hlast
    exact hlast

end Sys2Proof.Machine
end

section
/-! Acceptance of a command word, and reset, in a step (44_sequencer.md R126 to R128, R133). -/

namespace Sys2Proof.Machine

/-- Reset comes before every other event (60_exceptions.md R155). -/
theorem event_of_rst {s : State} (h : s.pins.rst = true) : s.event = .reset := by
  simp [State.event, eventOf, h]

/-- A step accepts a word exactly when it is offered in Idle without reset (44_sequencer.md R126, R127). -/
theorem event_eq_accept_iff {s : State} {w : CommandWord} :
    s.event = .accept w ↔ s.seq = .idle ∧ s.pins.rst = false ∧ s.pins.cmdValid = true ∧ s.pins.cmd = w := by
  refine ⟨idle_of_accept, fun ⟨hs, hr, hv, hw⟩ => ?_⟩
  simp [State.event, eventOf, hs, hr, hv, hw]

/-- The phase test names the Idle sequencer and no other. -/
theorem Sequencer.isIdle_iff {q : Sequencer} : q.isIdle = true ↔ q = .idle := by
  cases q <;> simp [Sequencer.isIdle]

/-- `cmd_ready` is 1 exactly in Idle without reset (44_sequencer.md R134, 70_reset_and_hazards.md R170). -/
theorem State.cmdReady_iff {s : State} : s.cmdReady = true ↔ s.seq = .idle ∧ s.pins.rst = false := by
  rw [State.cmdReady, Bool.and_eq_true, Bool.not_eq_true', Sequencer.isIdle_iff, and_comm]

/-- The word accepted in a step is the word of its `accept` event. -/
theorem State.acceptedNow_eq_singleton_iff {s : State} {w : CommandWord} :
    s.acceptedNow = [w] ↔ s.event = .accept w := by
  cases he : s.event <;> simp [State.acceptedNow, he]

/-- Outside Idle no word is accepted. -/
theorem State.acceptedNow_of_not_idle {s : State} (h : s.seq ≠ .idle) : s.acceptedNow = [] := by
  cases he : s.event with
  | accept w => exact absurd (idle_of_accept he).1 h
  | tick | deliver | reset | none => simp [State.acceptedNow, he]

/-- A reset step accepts no word. -/
theorem State.acceptedNow_of_reset {s : State} (h : s.event = .reset) : s.acceptedNow = [] := by
  simp [State.acceptedNow, h]

/-- A reset step delivers no response. -/
theorem State.deliveredNow_of_reset {s : State} (h : s.event = .reset) : s.deliveredNow = [] := by
  simp [State.deliveredNow, h]

/-- The step of an `accept` event is the execution of the decoded word (44_sequencer.md R128). -/
theorem step_eq_exec {s : State} {w : CommandWord} (h : s.event = .accept w) :
    step s = exec (decode w) s.sampled := by
  simp [step, h]

/-- In Idle a command has its acceptance effect. -/
theorem exec_of_idle (i : Instr) {s : State} (h : s.seq = .idle) :
    exec i s = .next (s.mapConfiguration (acceptEffect i)) :=
  (exec_eq_whenReady i s).trans (State.whenReady_idle _ h)

/-- A step sees of the input ports only the event they make. -/
theorem step_congr {s t : State} (he : s.event = t.event) (hs : s.sampled = t.sampled) : step s = step t := by
  unfold step
  rw [he, hs]

/-- Outside Idle the command port has no part in which event happens (44_sequencer.md R127). -/
theorem eventOf_cmd_of_not_idle {q : Sequencer} (hq : q ≠ .idle) (p : PortIn) (v : Bool) (w : CommandWord) :
    eventOf { p with cmdValid := v, cmd := w } q = eventOf p q := by
  cases q with
  | idle => contradiction
  | busy op cnt acc maxr => rfl
  | resp data err => rfl

/-- Settles O16: an accepted word is executed, and each command's acceptance effect is its row of the table. -/
theorem acceptEffectByCommand : Obligations.AcceptEffectByCommand := by
  unfold Obligations.AcceptEffectByCommand
  refine ⟨fun s w h => ⟨(idle_of_accept h).1, step_eq_exec h⟩, fun s hs => ?_⟩
  exact ⟨exec_of_idle .newDefault hs, fun a => exec_of_idle (.newWithSeed a) hs, exec_of_idle .nextByte hs,
    exec_of_idle .nextBool hs, exec_of_idle .nextU64 hs, fun a => exec_of_idle (.nextU64Max a) hs,
    exec_of_idle .reserved6 hs, exec_of_idle .reserved7 hs⟩

/-- Settles O18: acceptance is the `accept` event, and outside Idle neither the event nor the sampled machine depends on
the command port. -/
theorem offerTakenOnlyWhenIdle : Obligations.OfferTakenOnlyWhenIdle := by
  unfold Obligations.OfferTakenOnlyWhenIdle
  refine ⟨fun s w => ?_, fun s v w hs => ⟨?_, State.acceptedNow_of_not_idle hs, ?_⟩⟩
  · rw [State.acceptedNow_eq_singleton_iff, event_eq_accept_iff, State.cmdReady_iff, and_assoc]
  · exact Bool.eq_false_iff.mpr fun hready => hs (State.cmdReady_iff.mp hready).1
  · exact step_congr (eventOf_cmd_of_not_idle hs s.pins v w) rfl

/-- Settles O2: with `rst` asserted the event is `reset`, which accepts and delivers nothing. -/
theorem resetEventFromAnyConfiguration : Obligations.ResetEventFromAnyConfiguration := by
  unfold Obligations.ResetEventFromAnyConfiguration
  intro s hrst
  have he : s.event = .reset := event_of_rst hrst
  exact ⟨step_reset he, State.acceptedNow_of_reset he, State.deliveredNow_of_reset he⟩

end Sys2Proof.Machine
end

section
/-! The exception `IllegalCmd`: what raises it, and that it is precise (60_exceptions.md R150, R156). -/

namespace Sys2Proof.Machine

/-! ### What raises it -/

/-- The decoded command has the opcode of its word (30_encoding.md R52). -/
theorem opcode_decode (w : CommandWord) : (decode w).opcode = opField w := by
  apply BitVec.eq_of_toNat_eq
  unfold decode
  split
  case h_8 =>
    have hlt : (opField w).toNat < 8 := (opField w).isLt
    simp only [imp_false] at *
    change 7 = (opField w).toNat
    omega
  all_goals next hop => simp [Instr.opcode, hop]

/-- Accepting a command with a reserved opcode takes the exception (30_encoding.md R54). -/
theorem acceptEffect_of_reserved {i : Instr} (h : i.opcode = 6 ∨ i.opcode = 7) : acceptEffect i = .illegalCmd := by
  cases i with
  | reserved6 | reserved7 => rfl
  | newDefault | newWithSeed | nextByte | nextU64 | nextU64Max | nextBool => simp [Instr.opcode] at h

/-- No other acceptance offers an error response, and the data of this one are 0 (60_exceptions.md R150). -/
theorem reserved_of_acceptEffect_error {i : Instr} {c : Configuration Config.hash} {data : Word}
    (h : (acceptEffect i c).seq = .resp data true) : (i.opcode = 6 ∨ i.opcode = 7) ∧ data = 0 := by
  cases i with
  | reserved6 => cases h; exact ⟨.inl rfl, rfl⟩
  | reserved7 => cases h; exact ⟨.inr rfl, rfl⟩
  | newDefault | newWithSeed | nextByte | nextU64 | nextU64Max | nextBool => cases h

/-- A tick offers no error response (44_sequencer.md R130). -/
theorem advancePull_ne_error (op : PullOp) (cnt : Nat) (acc maxr data : Word) :
    advancePull op cnt acc maxr ≠ .resp data true := by
  rcases Nat.lt_or_ge 1 cnt with hmore | hlast
  · rw [advancePull_more op acc maxr hmore]
    nofun
  · rw [advancePull_last op acc maxr hlast]
    rcases finishPull_cases op acc maxr with ⟨_, hresp⟩ | ⟨-, -, hretry⟩
    · rw [hresp]; nofun
    · rw [hretry]; nofun

/-- The step that accepts a reserved word takes the exception. -/
theorem step_accept_reserved {s : State} {w : CommandWord} (h : s.event = .accept w)
    (hop : opField w = 6 ∨ opField w = 7) : step s = .next (s.sampled.mapConfiguration .illegalCmd) := by
  rw [← opcode_decode] at hop
  rw [step_accept h (idle_of_accept h).1, acceptEffect_of_reserved hop]

/-- Settles O27: of the five kinds of step, only acceptance and waiting can end with an error offered. -/
theorem illegalCmdOnlyByReservedOpcode : Obligations.IllegalCmdOnlyByReservedOpcode := by
  unfold Obligations.IllegalCmdOnlyByReservedOpcode
  refine ⟨fun s t data hstep ht => ?_, fun s w h hop => step_accept_reserved h hop⟩
  obtain ⟨-, ⟨-, -, hc⟩ | ⟨w, he, -, -, hc⟩ | ⟨_, _, _, _, -, -, hs, hc⟩ | ⟨_, _, -, -, -, hc⟩ | ⟨he, -, -, hc⟩⟩ :=
    step_cases hstep
  · rw [hc] at ht; cases ht
  · rw [hc] at ht
    obtain ⟨hop, hdata⟩ := reserved_of_acceptEffect_error ht
    exact .inr ⟨w, he, opcode_decode w ▸ hop, hdata⟩
  · rw [hc, Configuration.tick_busy_seq hs] at ht
    exact absurd ht (advancePull_ne_error _ _ _ _ _)
  · rw [hc] at ht; cases ht
  · exact .inl ⟨he, by rw [← hc, ht]⟩

/-! ### The run that accepts one reserved word -/

/-- A reset-free step in Idle waits, or accepts a word (44_sequencer.md R126, R137). -/
theorem step_idle_cases {s t : State} (hs : s.seq = .idle) (hr : s.pins.rst = false) (h : step s = .next t) :
    s.deliveredNow = [] ∧
      ((s.acceptedNow = [] ∧ t.toConfiguration = s.toConfiguration)
        ∨ ∃ w, s.acceptedNow = [w] ∧ t.toConfiguration = acceptEffect (decode w) s.toConfiguration) := by
  obtain ⟨-, ⟨hr', -, -⟩ | ⟨w, he, -, -, hc⟩ | ⟨_, _, _, _, -, -, hs', -⟩ | ⟨_, _, -, -, hs', -⟩ | ⟨he, -, -, hc⟩⟩ :=
    step_cases h
  · rw [hr] at hr'; cases hr'
  · exact ⟨by simp [State.deliveredNow, he], .inr ⟨w, State.acceptedNow_eq_singleton_iff.mpr he, hc⟩⟩
  · rw [hs] at hs'; cases hs'
  · rw [hs] at hs'; cases hs'
  · exact ⟨by simp [State.deliveredNow, he], .inl ⟨by simp [State.acceptedNow, he], hc⟩⟩

/-- A reset-free step in Resp holds the response, or delivers it (44_sequencer.md R132). -/
theorem step_resp_cases {s t : State} {data : Word} {err : Bool} (hs : s.seq = .resp data err)
    (hr : s.pins.rst = false) (h : step s = .next t) :
    (s.deliveredNow = [] ∧ t.toConfiguration = s.toConfiguration)
      ∨ (s.deliveredNow = [responseWord data err] ∧ t.toConfiguration = s.toConfiguration.deliver) := by
  obtain ⟨-, ⟨hr', -, -⟩ | ⟨_, -, -, hs', -⟩ | ⟨_, _, _, _, -, -, hs', -⟩ | ⟨_, _, he, -, -, hc⟩ | ⟨he, -, -, hc⟩⟩ :=
    step_cases h
  · rw [hr] at hr'; cases hr'
  · rw [hs] at hs'; cases hs'
  · rw [hs] at hs'; cases hs'
  · exact .inr ⟨by simp [State.deliveredNow, State.rsp, he, hs, hr], hc⟩
  · exact .inl ⟨by simp [State.deliveredNow, he], hc⟩

/-- An Idle block that accepts nothing keeps its configuration and delivers nothing (44_sequencer.md R137). -/
theorem idle_run_of_no_word {n : Nat} {s t : State} (hs : s.seq = .idle) (hr : s.noReset n = true)
    (hrun : Runs n s t) (hacc : acceptedWords n s = []) :
    t.toConfiguration = s.toConfiguration ∧ deliveredWords n s = [] := by
  induction n generalizing s with
  | zero => exact ⟨by rw [runs_zero.mp hrun], rfl⟩
  | succ n ih =>
    obtain ⟨u, hstep, hrest⟩ := runs_succ.mp hrun
    obtain ⟨hrst, hru⟩ := (noReset_succ_iff (step_cases hstep).1).mp hr
    rw [acceptedWords_succ hstep, List.append_eq_nil_iff] at hacc
    obtain ⟨hnow, hlater⟩ := hacc
    obtain ⟨hdel, ⟨-, hc⟩ | ⟨w, hw, -⟩⟩ := step_idle_cases hs hrst hstep
    · obtain ⟨ht, hdel'⟩ := ih (by rw [hc, hs]) hru hrest hlater
      exact ⟨ht.trans hc, by rw [deliveredWords_succ hstep, hdel, hdel', List.append_nil]⟩
    · rw [hw] at hnow; cases hnow

/-- A block that offers a response, accepts nothing and comes to Idle has delivered that response, and nothing else
has changed (44_sequencer.md R132). -/
theorem resp_run_of_no_word {n : Nat} {s t : State} {data : Word} {err : Bool} (hs : s.seq = .resp data err)
    (hr : s.noReset n = true) (hrun : Runs n s t) (hacc : acceptedWords n s = []) (ht : t.seq = .idle) :
    t.toConfiguration = s.toConfiguration.deliver ∧ deliveredWords n s = [responseWord data err] := by
  induction n generalizing s with
  | zero => rw [← runs_zero.mp hrun, hs] at ht; cases ht
  | succ n ih =>
    obtain ⟨u, hstep, hrest⟩ := runs_succ.mp hrun
    obtain ⟨hrst, hru⟩ := (noReset_succ_iff (step_cases hstep).1).mp hr
    rw [acceptedWords_succ hstep, List.append_eq_nil_iff] at hacc
    obtain ⟨-, hlater⟩ := hacc
    rw [deliveredWords_succ hstep]
    obtain ⟨hdel, hc⟩ | ⟨hdel, hc⟩ := step_resp_cases hs hrst hstep
    · obtain ⟨htc, hdel'⟩ := ih (by rw [hc, hs]) hru hrest hlater
      exact ⟨by rw [htc, hc], by rw [hdel, hdel', List.nil_append]⟩
    · obtain ⟨htc, hdel'⟩ := idle_run_of_no_word (by rw [hc, Configuration.deliver_seq]) hru hrest hlater
      exact ⟨htc.trans hc, by rw [hdel, hdel', List.append_nil]⟩

/-- Delivering the response of `IllegalCmd` restores an Idle configuration (60_exceptions.md R156, R157). -/
theorem Configuration.deliver_illegalCmd {H : Hash} {c : Configuration H} (h : c.seq = .idle) :
    c.illegalCmd.deliver = c :=
  Configuration.ext_gen rfl h.symm

/-- The response of `IllegalCmd` as a word (30_encoding.md R51, 60_exceptions.md R150). -/
theorem responseWord_illegalCmd : responseWord 0 true = 0x10000000000000000 := by decide

/-- Settles O28: the run waits in Idle until it accepts the word, offers the error response until it is delivered, and
waits in Idle again. -/
theorem illegalCmdIsPrecise : Obligations.IllegalCmdIsPrecise := by
  unfold Obligations.IllegalCmdIsPrecise
  intro s t n w hs hr hrun hacc hop ht
  induction n generalizing s with
  | zero => cases hacc
  | succ n ih =>
    obtain ⟨u, hstep, hrest⟩ := runs_succ.mp hrun
    obtain ⟨hrst, hru⟩ := (noReset_succ_iff (step_cases hstep).1).mp hr
    rw [acceptedWords_succ hstep] at hacc
    rw [deliveredWords_succ hstep]
    obtain ⟨hdel, ⟨hnow, hc⟩ | ⟨w', hnow, hc⟩⟩ := step_idle_cases hs hrst hstep
    · rw [hnow, List.nil_append] at hacc
      obtain ⟨htc, hdel'⟩ := ih u (by rw [hc, hs]) hru hrest hacc
      exact ⟨htc.trans hc, by rw [hdel, hdel', List.nil_append]⟩
    · rw [hnow, List.singleton_append] at hacc
      obtain ⟨rfl, hlater⟩ := List.cons.inj hacc
      rw [acceptEffect_of_reserved (opcode_decode w' ▸ hop)] at hc
      obtain ⟨htc, hdel'⟩ := resp_run_of_no_word (by rw [hc, Configuration.illegalCmd_seq]) hru hrest hlater ht
      exact ⟨by rw [htc, hc, Configuration.deliver_illegalCmd hs],
        by rw [hdel, hdel', List.nil_append, responseWord_illegalCmd]⟩

end Sys2Proof.Machine
end

section
/-! A held reset (70_reset_and_hazards.md R170). -/

namespace Sys2Proof.Machine

/-- The host asserts `rst` in each of the next `n` samples. -/
def State.HeldReset (s : State) (n : Nat) : Prop := n ≤ s.inputs.length ∧ ∀ p ∈ s.inputs.take n, p.rst = true

/-- A held reset is a sample with `rst` asserted, and a reset held one sample less from there on. -/
theorem State.heldReset_succ_iff {n : Nat} {s t : State} (h : t.inputs = s.inputs.tail) :
    s.HeldReset (n + 1) ↔ s.pins.rst = true ∧ t.HeldReset n := by
  unfold State.HeldReset State.pins
  rw [h]
  cases s.inputs with
  | nil => simp [PortIn.quiet]
  | cons p ps => simp [and_left_comm]

/-- With `rst` asserted the block is not ready for a command (70_reset_and_hazards.md R170). -/
theorem State.cmdReady_of_rst {s : State} (h : s.pins.rst = true) : s.cmdReady = false := by
  simp [State.cmdReady, h]

/-- With `rst` asserted the block offers no response (70_reset_and_hazards.md R170). -/
theorem State.rspValid_of_rst {s : State} (h : s.pins.rst = true) : s.rspValid = false := by
  simp [State.rspValid, h]

/-- A reset held for any positive number of samples ends in the reset configuration, with no word accepted and no
response delivered on the way. -/
theorem runs_heldReset {n : Nat} {s : State} (h : s.HeldReset (n + 1)) :
    Runs (n + 1) s { State.reset with inputs := s.inputs.drop (n + 1) }
      ∧ acceptedWords (n + 1) s = [] ∧ deliveredWords (n + 1) s = [] := by
  induction n generalizing s with
  | zero =>
    obtain ⟨hrst, -⟩ := (State.heldReset_succ_iff (t := s.sampled) rfl).mp h
    obtain ⟨hstep, hacc, hdel⟩ := resetEventFromAnyConfiguration s hrst
    rw [acceptedWords_succ hstep, deliveredWords_succ hstep, hacc, hdel, List.drop_one]
    exact ⟨⟨_, hstep, rfl⟩, rfl, rfl⟩
  | succ n ih =>
    obtain ⟨hrst, hrest⟩ :=
      (State.heldReset_succ_iff (t := { State.reset with inputs := s.inputs.tail }) rfl).mp h
    obtain ⟨hstep, hacc, hdel⟩ := resetEventFromAnyConfiguration s hrst
    obtain ⟨hrun, hacc', hdel'⟩ := ih hrest
    rw [List.drop_tail] at hrun
    rw [acceptedWords_succ hstep, deliveredWords_succ hstep, hacc, hdel, hacc', hdel']
    exact ⟨⟨_, hstep, hrun⟩, rfl, rfl⟩

/-- Settles O3: the outputs are those of a block with `rst` asserted, and the run is a held reset, whose only end is the
reset configuration, an Idle one. -/
theorem heldResetHoldsResetState : Obligations.HeldResetHoldsResetState := by
  unfold Obligations.HeldResetHoldsResetState
  intro s n hlen hheld
  have h : s.HeldReset (n + 1) := ⟨hlen, hheld⟩
  obtain ⟨hrst, -⟩ := (State.heldReset_succ_iff (t := s.sampled) rfl).mp h
  obtain ⟨hrun, hacc, hdel⟩ := runs_heldReset h
  refine ⟨State.cmdReady_of_rst hrst, State.rspValid_of_rst hrst, hacc, hdel, hrun, fun t ht hrelease => ?_⟩
  rw [runs_unique ht hrun] at hrelease ⊢
  exact State.cmdReady_iff.mpr ⟨rfl, hrelease⟩

end Sys2Proof.Machine
end

section
/-! The decoder, the encoder and the opcode table (30_encoding.md R50 to R55, R61). -/

namespace Sys2Proof.Machine

/-! ### Decoding and encoding -/

/-- The commands that use their operand field (30_encoding.md R53). -/
def UsesOperand (op : BitVec 3) : Prop := op = 1 ∨ op = 4

/-- A command whose opcode uses the operand field decodes with that field as its operand. -/
theorem operand_decode {w : CommandWord} (h : UsesOperand (opField w)) : (decode w).operand = argField w := by
  rcases h with hop | hop <;> simp [decode, hop, Instr.operand]

/-- The decoder reads the opcode, and the operand field only where it is used. -/
theorem decode_congr {w v : CommandWord} (hop : opField w = opField v)
    (harg : UsesOperand (opField w) → argField w = argField v) : decode w = decode v := by
  by_cases hused : UsesOperand (opField w)
  · unfold decode
    rw [hop, harg hused]
  · unfold decode
    rw [← hop]
    split
    case h_2 hone => exact absurd (.inl (BitVec.eq_of_toNat_eq hone)) hused
    case h_5 hfour => exact absurd (.inr (BitVec.eq_of_toNat_eq hfour)) hused
    all_goals rfl

/-- Two words decode alike exactly when they agree in what the decoder reads (30_encoding.md R61). -/
theorem decode_eq_iff {w v : CommandWord} :
    decode w = decode v ↔ opField w = opField v ∧ (UsesOperand (opField w) → argField w = argField v) := by
  refine ⟨fun h => ?_, fun ⟨hop, harg⟩ => decode_congr hop harg⟩
  have hop : opField w = opField v := by rw [← opcode_decode w, ← opcode_decode v, h]
  refine ⟨hop, fun hused => ?_⟩
  rw [← operand_decode hused, h, operand_decode (hop ▸ hused)]

/-- Encoding is a right inverse of decoding (30_encoding.md R61). -/
theorem decode_encode (i : Instr) : decode (encode i) = i := by
  unfold decode encode
  rw [opField_commandWord, argField_commandWord]
  cases i <;> rfl

/-- Every command is well-formed (30_encoding.md R53, R54). -/
theorem wellFormed_eq_true (i : Instr) : i.wellFormed = true := by
  cases i <;> rfl

/-- Settles O4: the encoder's fields are the ones the decoder reads, and the decoder reads no more. -/
theorem decodeEncodeAgree : Obligations.DecodeEncodeAgree := by
  unfold Obligations.DecodeEncodeAgree
  exact ⟨fun i => ⟨decode_encode i, wellFormed_eq_true i⟩, fun w => decode_encode (decode w),
    fun w v => decode_eq_iff⟩

/-! ### The opcode table -/

/-- A word is put together from its two fields (30_encoding.md R50). -/
theorem commandWord_fields (w : CommandWord) : commandWord (opField w) (argField w) = w := by
  unfold commandWord opField argField
  rw [BitVec.extractLsb'_append_extractLsb'_eq_extractLsb' (by omega)]
  exact BitVec.extractLsb'_eq_self

/-- Two words are equal when both fields are. -/
theorem commandWord_inj {op op' : BitVec 3} {arg arg' : Word} (h : commandWord op arg = commandWord op' arg') :
    op = op' ∧ arg = arg' :=
  ⟨by rw [← opField_commandWord op arg, h, opField_commandWord],
    by rw [← argField_commandWord op arg, h, argField_commandWord]⟩

/-- The table's mask keeps the opcode and clears the operand (30_encoding.md R52). -/
theorem and_opcodeMask (w : CommandWord) : w &&& commandWord 7 0 = commandWord (opField w) 0 := by
  have hop : opField w &&& 7 = opField w := BitVec.and_allOnes
  have harg : argField w &&& 0 = 0 := BitVec.and_zero
  conv_lhs => rw [← commandWord_fields w]
  unfold commandWord
  rw [BitVec.and_append, hop, harg]

/-- The mnemonic that the table gives an opcode. -/
def mnemonicOf (op : BitVec 3) : String := (decode (commandWord op 0)).mnemonic

/-- The mnemonic of a decoded word depends on its opcode alone. -/
theorem mnemonic_decode (w : CommandWord) : (decode w).mnemonic = mnemonicOf (opField w) := by
  unfold mnemonicOf decode
  rw [opField_commandWord]
  split <;> rfl

/-- No two opcodes share a mnemonic. -/
theorem mnemonicOf_inj : ∀ {op op' : BitVec 3}, mnemonicOf op = mnemonicOf op' → op = op' := by decide

/-- The table's row of an opcode: one mask for all, and the opcode over a cleared operand (30_encoding.md R52). -/
def rowOf (op : BitVec 3) : OpcodeRow :=
  { mnemonic := mnemonicOf op, mask := commandWord 7 0, pattern := commandWord op 0 }

/-- The table has one row for each opcode, and no other. -/
theorem mem_opcodeTable_iff {row : OpcodeRow} : row ∈ opcodeTable ↔ ∃ op, row = rowOf op := by
  constructor
  · exact (by decide : ∀ row ∈ opcodeTable, ∃ op, row = rowOf op) row
  · rintro ⟨op, rfl⟩
    exact (by decide : ∀ op, rowOf op ∈ opcodeTable) op

/-- A word fits the row of its own opcode only. -/
theorem rowOf_fits_iff {op : BitVec 3} {w : CommandWord} : (rowOf op).fits w = true ↔ opField w = op := by
  rw [OpcodeRow.fits, beq_iff_eq, rowOf, and_opcodeMask]
  exact ⟨fun h => (commandWord_inj h).1, fun h => h ▸ rfl⟩

/-- Settles O5: fitting a row and having its mnemonic both say which opcode the word has. -/
theorem opcodeTableDecides : Obligations.OpcodeTableDecides := by
  unfold Obligations.OpcodeTableDecides
  refine ⟨fun w row hrow => ?_, fun w => ⟨rowOf (opField w), mem_opcodeTable_iff.mpr ⟨_, rfl⟩,
    rowOf_fits_iff.mpr rfl, fun row hrow hfits => ?_⟩⟩
  · obtain ⟨op, rfl⟩ := mem_opcodeTable_iff.mp hrow
    rw [rowOf_fits_iff, mnemonic_decode]
    exact ⟨congrArg mnemonicOf, mnemonicOf_inj⟩
  · obtain ⟨op, rfl⟩ := mem_opcodeTable_iff.mp hrow
    rw [rowOf_fits_iff.mp hfits]

/-- Settles O6: each word evaluates to its command. -/
theorem writtenWordsDecode : Obligations.WrittenWordsDecode := by
  unfold Obligations.WrittenWordsDecode
  exact ⟨by decide, by decide, by decide, by decide, by decide, by decide, by decide, by decide, by decide⟩

/-! ### The response word -/

/-- Bit 64 of a response word is `err` (30_encoding.md R51). -/
theorem responseWord_err (data : Word) (err : Bool) : (responseWord data err).getLsbD 64 = err := by
  rw [responseWord, BitVec.getLsbD_append]
  simp

/-- Bits 63:0 of a response word are `data` (30_encoding.md R51). -/
theorem responseWord_data (data : Word) (err : Bool) : (responseWord data err).extractLsb' 0 64 = data := by
  apply BitVec.eq_of_getLsbD_eq
  intro i hi
  rw [responseWord, BitVec.getLsbD_extractLsb', BitVec.getLsbD_append]
  simp [hi]

/-- Settles O7: the fields can be read back, so they determine the word and are determined by it. -/
theorem responseWordFields : Obligations.ResponseWordFields := by
  unfold Obligations.ResponseWordFields
  refine fun data data' err err' => ⟨responseWord_err data err, responseWord_data data err, fun h => ⟨?_, ?_⟩, ?_⟩
  · rw [← responseWord_data data err, h, responseWord_data]
  · rw [← responseWord_err data err, h, responseWord_err]
  · rintro ⟨rfl, rfl⟩
    rfl

/-! ### The assembler -/

theorem assembleLine_of_wellFormed {l : Line} (h : l.wellFormed = true) :
    assembleLine l = some ((expandLine l).map encode) := by
  simp [assembleLine, h]

theorem assembleLine_of_not_wellFormed {l : Line} (h : l.wellFormed = false) : assembleLine l = none := by
  simp [assembleLine, h]

/-- A literal that needs more than 64 bits does not fit (assumption log entry 11). -/
theorem literalFits_of_le {m : Nat} (h : 2 ^ 64 ≤ m) : literalFits m = false := by
  simpa [literalFits] using h

/-- The number of a word fits as a literal. -/
theorem literalFits_toNat (a : Word) : literalFits a.toNat = true := by
  simp [literalFits, a.isLt]

/-- Settles O8: encoding is a right inverse of decoding on each command of a line, and a literal that fits is its own
64-bit word. -/
theorem assembledLinesDecode : Obligations.AssembledLinesDecode := by
  unfold Obligations.AssembledLinesDecode
  refine ⟨fun l hl => ⟨_, assembleLine_of_wellFormed hl, ?_⟩, fun l hl => assembleLine_of_not_wellFormed hl,
    fun m hm => ⟨assembleLine_of_not_wellFormed (literalFits_of_le hm),
      assembleLine_of_not_wellFormed (literalFits_of_le hm)⟩, fun n => ?_, fun a => ?_⟩
  · rw [List.map_map, funext decode_encode (f := decode ∘ encode), List.map_id']
  · rw [assembleLine_of_wellFormed rfl, expandLine, List.map_replicate]
    rfl
  · have hword : BitVec.ofNat 64 a.toNat = a := by simp
    rw [assembleLine_of_wellFormed (l := .newWithSeed a.toNat) (literalFits_toNat a),
      assembleLine_of_wellFormed (l := .nextU64Max a.toNat) (literalFits_toNat a), expandLine, expandLine, hword]
    exact ⟨rfl, rfl⟩

end Sys2Proof.Machine
end

section
/-! `PACK8` and `BE8` (42_byte_extraction.md R92, 20_memory.md R41), and the mask as a number
(43_rejection_selector.md R111). -/

open Sys2Proof.Claims

namespace Sys2Proof.Machine

/-! ### Packing and feeding -/

/-- The feed of a word is the bytes it holds, most significant first. -/
theorem be8_eq_iff {v : Word} {b : Bytes8} : be8 v = b ↔ HoldsBigEndian v b := by
  rw [be8, Bytes8.mk.injEq, HoldsBigEndian]

/-- Feeding what was packed gives the bytes back. -/
theorem be8_pack8 (b : Bytes8) : be8 (pack8 b) = b := by
  rw [be8_eq_iff, ← foldl_shiftIn_eq_pack8]
  exact holdsBigEndian_foldl_shiftIn 0 b

/-- Packing what was fed gives the word back: neighbouring bytes join. -/
theorem pack8_be8 (v : Word) : pack8 (be8 v) = v := by
  simp only [pack8, be8]
  rw [BitVec.extractLsb'_append_extractLsb'_eq_extractLsb' (by omega),
    BitVec.extractLsb'_append_extractLsb'_eq_extractLsb' (by omega),
    BitVec.extractLsb'_append_extractLsb'_eq_extractLsb' (by omega),
    BitVec.extractLsb'_append_extractLsb'_eq_extractLsb' (by omega),
    BitVec.extractLsb'_append_extractLsb'_eq_extractLsb' (by omega),
    BitVec.extractLsb'_append_extractLsb'_eq_extractLsb' (by omega),
    BitVec.extractLsb'_append_extractLsb'_eq_extractLsb' (by omega)]
  exact BitVec.extractLsb'_eq_self

/-- Settles O10: the packing loop puts each byte where the feed reads it. -/
theorem packIsLoopAndInvertsFeed : Obligations.PackIsLoopAndInvertsFeed := by
  unfold Obligations.PackIsLoopAndInvertsFeed
  exact ⟨foldl_shiftIn_eq_pack8, pack8_be8, be8_pack8⟩

/-! ### The mask as a number -/

/-- The word with ones in its `k` lowest bits, `2^k - 1` over the integers. -/
def lowOnes (k : Nat) : Word := BitVec.ofNat 64 (2 ^ k - 1)

/-- The mask is as many low ones as the bound has bits (43_rejection_selector.md R111). -/
theorem mask_eq_lowOnes (v : Word) : mask v = lowOnes (64 - clz64 v) := rfl

theorem getLsbD_lowOnes {k : Nat} (hk : k ≤ 64) (i : Nat) : (lowOnes k).getLsbD i = decide (i < k) := by
  simp only [lowOnes, BitVec.getLsbD_ofNat, Nat.testBit_two_pow_sub_one, ← Bool.decide_and, decide_eq_decide]
  omega

/-- `2^k - 1` fits 64 bits up to `k = 64`: the formula over the integers does not wrap. -/
theorem toNat_lowOnes {k : Nat} (hk : k ≤ 64) : (lowOnes k).toNat = 2 ^ k - 1 := by
  have hle : 2 ^ k ≤ 2 ^ 64 := Nat.pow_le_pow_right (by omega) hk
  have hpos : 0 < 2 ^ k := Nat.two_pow_pos k
  rw [lowOnes, BitVec.toNat_ofNat, Nat.mod_eq_of_lt (by omega)]

/-- `k` low ones leave `64 - k` leading zeros. -/
theorem clz64_lowOnes {k : Nat} (hk : k ≤ 64) : clz64 (lowOnes k) = 64 - k := by
  cases k with
  | zero => exact clz64_zero
  | succ k =>
    rw [clz64_of_highest (h := k) (by simp [getLsbD_lowOnes hk])
      (fun j hj => by simp [getLsbD_lowOnes hk, Nat.not_lt.mpr hj])]
    omega

/-- A bound of the form `2^k - 1` is its own mask (43_rejection_selector.md R119). -/
theorem mask_lowOnes {k : Nat} (hk : k ≤ 64) : mask (lowOnes k) = lowOnes k := by
  rw [mask_eq_lowOnes, clz64_lowOnes hk, Nat.sub_sub_self hk]

theorem toNat_mask (v : Word) : (mask v).toNat = 2 ^ (64 - clz64 v) - 1 := toNat_lowOnes (Nat.sub_le _ _)

theorem mask_mask (v : Word) : mask (mask v) = mask v := mask_lowOnes (Nat.sub_le _ _)

/-- The bound has no bit above its mask. -/
theorem and_mask_self (v : Word) : v &&& mask v = v := by
  apply BitVec.eq_of_getLsbD_eq
  intro i _
  rw [BitVec.getLsbD_and, getLsbD_mask, Bool.and_eq_left_iff_imp, decide_eq_true_iff]
  exact lt_sub_clz64_of_getLsbD

/-- What is masked is at most the mask. -/
theorem and_le_right (v m : Word) : v &&& m ≤ m := by
  rw [BitVec.le_def, BitVec.toNat_and]
  exact Nat.and_le_right

/-- The mask covers its bound. -/
theorem le_mask (v : Word) : v ≤ mask v := by
  have h := and_le_right v (mask v)
  rwa [and_mask_self] at h

/-- The mask of a bound other than 0 is less than twice the bound: both have the same highest bit. -/
theorem toNat_mask_lt {v : Word} (hv : v ≠ 0) : (mask v).toNat < 2 * v.toNat := by
  have hclz : clz64 v < 64 := by
    by_contra hge
    exact hv (BitVec.eq_of_getLsbD_eq fun i _ => (getLsbD_of_clz64_le (by omega)).trans BitVec.getLsbD_zero.symm)
  have hbit : 2 ^ (63 - clz64 v) ≤ v.toNat := Nat.ge_two_pow_of_testBit (getLsbD_clz64 hclz)
  have hpow : 2 ^ (64 - clz64 v) = 2 * 2 ^ (63 - clz64 v) := by
    rw [show 64 - clz64 v = 63 - clz64 v + 1 by omega, Nat.pow_succ, Nat.mul_comm]
  have hpos : 0 < 2 ^ (63 - clz64 v) := Nat.two_pow_pos _
  rw [toNat_mask, hpow]
  omega

/-- The ones of the mask are the bits from the highest set bit of the bound down (43_rejection_selector.md R111). -/
theorem getLsbD_mask_of_highest {v : Word} {h : Nat} (hset : v.getLsbD h = true)
    (habove : ∀ j, h < j → v.getLsbD j = false) (i : Nat) : (mask v).getLsbD i = decide (i ≤ h) := by
  have hlt : h < 64 := BitVec.lt_of_getLsbD hset
  rw [getLsbD_mask, clz64_of_highest hset habove, decide_eq_decide]
  omega

/-- Settles O14: the rows of the table are evaluated, and the rest are the facts about the mask as low ones. -/
theorem maskCoversBound : Obligations.MaskCoversBound := by
  unfold Obligations.MaskCoversBound
  refine ⟨by decide, fun v => ⟨toNat_mask v, fun h hset habove => getLsbD_mask_of_highest hset habove, le_mask v,
    toNat_mask_lt, and_mask_self v, mask_mask v⟩⟩

end Sys2Proof.Machine
end

section
/-! One step of the machine: that it has a next state, what it writes, its outputs, and the waiting host
(10_state.md R21, R22, R31; 44_sequencer.md R126 to R137). -/

open Sys2Proof.Claims

namespace Sys2Proof.Machine

/-! ### Acceptance, ticks, and the next state -/

/-- Settles O15: acceptance needs Idle, the offered word and no reset, and its step executes the decoded word. -/
theorem stepRunsDecodedCommand : Obligations.StepRunsDecodedCommand := by
  unfold Obligations.StepRunsDecodedCommand
  refine ⟨fun s w => event_eq_accept_iff, fun s hs hr hv => ⟨wellFormed_eq_true _, ?_⟩⟩
  exact step_eq_exec (event_eq_accept_iff.mpr ⟨hs, hr, hv, rfl⟩)

/-- Settles O17: every command is offered through the one handshake rule, which waits outside Idle. -/
theorem commandWaitsOutsideIdle : Obligations.CommandWaitsOutsideIdle := by
  unfold Obligations.CommandWaitsOutsideIdle
  exact fun i s hs => (exec_eq_whenReady i s).trans (State.whenReady_waits _ hs)

/-- Settles O19: the step is a tick, whose STEP feeds the bytes of `STATE` in the order of `BE8`. -/
theorem tickHashesState : Obligations.TickHashesState := by
  unfold Obligations.TickHashesState
  intro s t op cnt acc maxr hr hs hstep
  rw [step_busy hr hs] at hstep
  cases hstep
  exact ⟨rfl, rfl⟩

/-- The step that takes a command has its acceptance effect. -/
theorem step_eq_of_takes {s : State} {i : Instr} (h : Takes s i) :
    step s = .next (s.sampled.mapConfiguration (acceptEffect i)) := by
  obtain ⟨-, -, hstep⟩ := step_of_takes h
  exact hstep

/-- Every state has a next state: each event has its step. -/
theorem exists_step (s : State) : ∃ t, step s = .next t := by
  cases he : s.event with
  | accept w => exact ⟨_, step_accept he (idle_of_accept he).1⟩
  | tick => exact ⟨_, step_tick he⟩
  | deliver => exact ⟨_, step_deliver he⟩
  | reset => exact ⟨_, step_reset he⟩
  | none => exact ⟨_, step_none he⟩

/-- Settles O25: the step of each event is a next state, which has consumed one sample. -/
theorem everyStepHasNextState : Obligations.EveryStepHasNextState := by
  unfold Obligations.EveryStepHasNextState
  intro s
  obtain ⟨t, ht⟩ := exists_step s
  exact ⟨t, ht, (step_cases ht).1⟩

/-- So runs of every length exist. -/
theorem exists_runs (n : Nat) (s : State) : ∃ t, Runs n s t := by
  induction n generalizing s with
  | zero => exact ⟨s, rfl⟩
  | succ n ih =>
    obtain ⟨u, hu⟩ := exists_step s
    obtain ⟨t, ht⟩ := ih u
    exact ⟨t, u, hu, ht⟩

/-! ### What writes (`STATE`, `HCTX`) -/

/-- Accepting a command that is no construction leaves (`STATE`, `HCTX`) as they were. -/
theorem acceptEffect_gen_cases (i : Instr) (c : Configuration Config.hash) :
    i = .newDefault ∨ (∃ a, i = .newWithSeed a) ∨ (acceptEffect i c).gen = c.gen := by
  cases i with
  | newDefault => exact .inl rfl
  | newWithSeed a => exact .inr (.inl ⟨a, rfl⟩)
  | nextByte | nextU64 | nextU64Max | nextBool | reserved6 | reserved7 => exact .inr (.inr rfl)

/-- A step changes (`STATE`, `HCTX`) only in a reset, a construction or a tick (10_state.md R21, R22). -/
theorem step_gen_cases {s t : State} (h : step s = .next t) :
    s.event = .reset ∨ Takes s .newDefault ∨ (∃ a, Takes s (.newWithSeed a)) ∨ s.event = .tick ∨ t.gen = s.gen := by
  obtain ⟨-, ⟨-, he, -⟩ | ⟨w, he, -, -, hc⟩ | ⟨_, _, _, _, he, -⟩ | ⟨_, _, -, -, -, hc⟩ | ⟨-, -, -, hc⟩⟩ := step_cases h
  · exact .inl he
  · rcases acceptEffect_gen_cases (decode w) s.toConfiguration with hi | ⟨a, hi⟩ | hgen
    · exact .inr (.inl ⟨w, he, hi⟩)
    · exact .inr (.inr (.inl ⟨a, w, he, hi⟩))
    · exact .inr (.inr (.inr (.inr (hc ▸ hgen))))
  · exact .inr (.inr (.inr (.inl he)))
  · exact .inr (.inr (.inr (.inr (by rw [hc, Configuration.deliver_gen]))))
  · exact .inr (.inr (.inr (.inr (by rw [hc]))))

/-- Settles O26: reset, the constructions and the tick each have their step, and no other step writes the pair. -/
theorem generatorWrittenOnlyByStepAndConstruction : Obligations.GeneratorWrittenOnlyByStepAndConstruction := by
  unfold Obligations.GeneratorWrittenOnlyByStepAndConstruction
  intro s t h
  refine ⟨fun he => ?_, fun htakes => ?_, fun a htakes => ?_, fun he => ?_, fun hne => ?_⟩
  · cases (step_reset he).symm.trans h
    exact ⟨rfl, rfl⟩
  · cases (step_eq_of_takes htakes).symm.trans h
    exact ⟨rfl, rfl⟩
  · cases (step_eq_of_takes htakes).symm.trans h
    exact ⟨rfl, rfl⟩
  · obtain ⟨-, ⟨-, he', -⟩ | ⟨_, he', -⟩ | ⟨_, _, _, _, -, -, hs, hc⟩ | ⟨_, _, he', -⟩ | ⟨he', -⟩⟩ := step_cases h
    case inr.inr.inl => exact (congrArg Configuration.gen hc).trans (Configuration.tick_busy_gen hs)
    all_goals cases he.symm.trans he'
  · rcases step_gen_cases h with he | htakes | htakes | he | hgen
    · exact .inl he
    · exact .inr (.inl htakes)
    · exact .inr (.inr (.inl htakes))
    · exact .inr (.inr (.inr he))
    · exact absurd hgen hne

/-! ### The response handshake and the outputs -/

/-- In Resp without reset the response word is offered (44_sequencer.md R132). -/
theorem State.rsp_of_resp {s : State} {data : Word} {err : Bool} (hs : s.seq = .resp data err)
    (hr : s.pins.rst = false) : s.rsp = some (responseWord data err) := by
  simp [State.rsp, hs, hr]

/-- Outside Resp there is no response word. -/
theorem State.rsp_of_not_resp {s : State} (h : ∀ data err, s.seq ≠ .resp data err) : s.rsp = none := by
  cases hs : s.seq with
  | idle | busy => simp [State.rsp, hs]
  | resp data err => exact absurd hs (h data err)

/-- A response that the host is ready for is delivered. -/
theorem event_of_resp_ready {s : State} {data : Word} {err : Bool} (hs : s.seq = .resp data err)
    (hr : s.pins.rst = false) (hready : s.pins.rspReady = true) : s.event = .deliver := by
  simp [State.event, eventOf, hs, hr, hready]

/-- A response that the host is not ready for is held. -/
theorem event_of_resp_waiting {s : State} {data : Word} {err : Bool} (hs : s.seq = .resp data err)
    (hr : s.pins.rst = false) (hready : s.pins.rspReady = false) : s.event = .none := by
  simp [State.event, eventOf, hs, hr, hready]

/-- The phase test names the sequencers that offer a response and no other. -/
theorem Sequencer.isResp_iff {q : Sequencer} : q.isResp = true ↔ ∃ data err, q = .resp data err := by
  cases q <;> simp [Sequencer.isResp]

/-- `rsp_valid` is 1 exactly in Resp without reset (44_sequencer.md R134, 70_reset_and_hazards.md R170). -/
theorem State.rspValid_iff {s : State} :
    s.rspValid = true ↔ (∃ data err, s.seq = .resp data err) ∧ s.pins.rst = false := by
  rw [State.rspValid, Bool.and_eq_true, Bool.not_eq_true', Sequencer.isResp_iff, and_comm]

/-- `busy` is 1 exactly outside Idle (10_state.md R31). -/
theorem State.busy_iff {s : State} : s.busy = true ↔ s.seq ≠ .idle := by
  rw [State.busy, Bool.not_eq_true', Bool.eq_false_iff, ne_eq, Sequencer.isIdle_iff]

/-- The step that delivers a response returns to Idle and changes nothing else (44_sequencer.md R132). -/
theorem step_resp_ready {s : State} {data : Word} {err : Bool} (hs : s.seq = .resp data err)
    (hr : s.pins.rst = false) (hready : s.pins.rspReady = true) :
    step s = .next { s with seq := .idle, inputs := s.inputs.tail } ∧ s.deliveredNow = [responseWord data err] := by
  have he : s.event = .deliver := event_of_resp_ready hs hr hready
  refine ⟨step_deliver he, ?_⟩
  simp [State.deliveredNow, he, State.rsp_of_resp hs hr]

/-- Settles O22: readiness decides between the `deliver` event and none. -/
theorem responseHeldThenDelivered : Obligations.ResponseHeldThenDelivered := by
  unfold Obligations.ResponseHeldThenDelivered
  intro s data err hs hr
  refine ⟨State.rsp_of_resp hs hr, State.rspValid_iff.mpr ⟨⟨data, err, hs⟩, hr⟩, step_resp_ready hs hr,
    fun hready => ?_⟩
  have he : s.event = .none := event_of_resp_waiting hs hr hready
  exact ⟨step_none he, by simp [State.deliveredNow, he]⟩

/-- The outputs depend on the level of `rst`, on the phase, and in Resp on the response alone. -/
theorem outputs_congr {s t : State} (hr : s.pins.rst = t.pins.rst) (hidle : s.seq.isIdle = t.seq.isIdle)
    (hresp : ∀ data err, s.seq = .resp data err ↔ t.seq = .resp data err) :
    s.cmdReady = t.cmdReady ∧ s.busy = t.busy ∧ s.rspValid = t.rspValid ∧ s.rsp = t.rsp := by
  have hvalid : s.seq.isResp = t.seq.isResp := by
    rw [Bool.eq_iff_iff, Sequencer.isResp_iff, Sequencer.isResp_iff]
    simp only [hresp]
  refine ⟨by rw [State.cmdReady, State.cmdReady, hr, hidle], by rw [State.busy, State.busy, hidle],
    by rw [State.rspValid, State.rspValid, hr, hvalid], ?_⟩
  cases hs : s.seq with
  | resp data err => rw [State.rsp, State.rsp, hs, (hresp data err).mp hs, hr]
  | idle | busy =>
    rw [State.rsp_of_not_resp (by simp [hs]), State.rsp_of_not_resp (by simp [← hresp, hs])]

/-- Settles O24: each output is a function of the phase, and of the response in Resp. -/
theorem outputsOfSequencerAlone : Obligations.OutputsOfSequencerAlone := by
  unfold Obligations.OutputsOfSequencerAlone
  refine ⟨fun s hr => ⟨?_, State.busy_iff, ?_, fun word => ⟨fun h => ?_, ?_⟩⟩, fun s t hr h => ?_⟩
  · rw [State.cmdReady_iff, and_iff_left hr]
  · rw [State.rspValid_iff, and_iff_left hr]
  · by_cases hs : ∃ data err, s.seq = .resp data err
    · obtain ⟨data, err, hs⟩ := hs
      rw [State.rsp_of_resp hs hr] at h
      exact ⟨data, err, hs, (Option.some.inj h).symm⟩
    · rw [State.rsp_of_not_resp (by simpa using hs)] at h
      cases h
  · rintro ⟨data, err, hs, rfl⟩
    exact State.rsp_of_resp hs hr
  · obtain hseq | ⟨_, _, _, _, _, _, _, _, hs, ht⟩ := h
    · exact outputs_congr hr (by rw [hseq]) (by simp [hseq])
    · exact outputs_congr hr (by rw [hs, ht]; rfl) (by simp [hs, ht])

/-! ### Waiting -/

/-- A host whose every sample makes no event in the present phase leaves the configuration as it is; the sample `quiet`
stands for a host with no more to drive. -/
theorem runs_of_no_event {n : Nat} {s : State} (hquiet : eventOf .quiet s.seq = .none)
    (hnone : ∀ p ∈ s.inputs.take n, eventOf p s.seq = .none) : Runs n s { s with inputs := s.inputs.drop n } := by
  induction n generalizing s with
  | zero => rfl
  | succ n ih =>
    have he : s.event = .none := by
      unfold State.event State.pins
      cases hi : s.inputs with
      | nil => exact hquiet
      | cons p ps => exact hnone p (by simp [hi])
    have hrest := ih (s := s.sampled) hquiet fun p hp => hnone p ?_
    · rw [State.sampled_inputs, List.drop_tail] at hrest
      exact ⟨_, step_none he, hrest⟩
    · cases hi : s.inputs with
      | nil => simp [hi] at hp
      | cons q ps => exact List.mem_cons_of_mem _ (by simpa [hi] using hp)

/-- Settles O23: a sample that offers no word makes no event in Idle, and one that takes no response none in Resp. -/
theorem waitingChangesNothing : Obligations.WaitingChangesNothing := by
  unfold Obligations.WaitingChangesNothing
  intro s n hr
  have hrst : ∀ p ∈ s.inputs.take n, p.rst = false := by simpa [State.noReset] using hr
  refine ⟨fun hs hno => ?_, fun data err hs hno => ?_⟩
  · exact runs_of_no_event (by rw [hs]; rfl) fun p hp => by simp [eventOf, hs, hrst p hp, hno p hp]
  · exact runs_of_no_event (by rw [hs]; rfl) fun p hp => by simp [eventOf, hs, hrst p hp, hno p hp]

/-! ### The invariant of the sequencer registers -/

/-- A pull's operation fits its registers: a one-byte pull has `CNT = 1` and an empty shift register, and only
`U64MAX` has a bound (44_sequencer.md R125, R128). -/
def PullFits (op : PullOp) (cnt : Nat) (acc maxr : Word) : Prop :=
  (op = .byte ∨ op = .bool → cnt = 1 ∧ acc = 0) ∧ (op ≠ .u64Max → maxr = 0)

/-- The invariant in Busy. -/
theorem Sequencer.wf_busy_iff {op : PullOp} {cnt : Nat} {acc maxr : Word} :
    (Sequencer.busy op cnt acc maxr).wf = true
      ↔ 1 ≤ cnt ∧ cnt ≤ 8 ∧ acc.toNat < 2 ^ (8 * (8 - cnt)) ∧ PullFits op cnt acc maxr := by
  cases op <;> simp [Sequencer.wf, PullFits, and_assoc]

/-- A response without error has the invariant. -/
theorem Sequencer.wf_resp_ok (data : Word) : (Sequencer.resp data false).wf = true := rfl

/-- Every pull starts with the invariant: nothing is shifted in yet. -/
theorem Sequencer.wf_start {op : PullOp} {cnt : Nat} {maxr : Word} (h1 : 1 ≤ cnt) (h8 : cnt ≤ 8)
    (hfits : PullFits op cnt 0 maxr) : (Sequencer.busy op cnt 0 maxr).wf = true :=
  Sequencer.wf_busy_iff.mpr ⟨h1, h8, Nat.two_pow_pos _, hfits⟩

/-- A packing step adds at most eight bits: as long as `ACC` has room the shift discards no set bit. -/
theorem toNat_shiftIn_lt {acc : Word} {k : Nat} (b : Byte) (h : acc.toNat < 2 ^ k) :
    (shiftIn acc b).toNat < 2 ^ (k + 8) := by
  have hb : b.toNat < 2 ^ 8 := b.isLt
  have hshift : acc.toNat <<< 8 % 2 ^ 64 < 2 ^ (k + 8) := by
    refine lt_of_le_of_lt (Nat.mod_le _ _) ?_
    rw [Nat.shiftLeft_eq, Nat.pow_add]
    exact Nat.mul_lt_mul_of_pos_right h (Nat.two_pow_pos 8)
  have hbyte : b.toNat % 2 ^ 64 < 2 ^ (k + 8) :=
    lt_of_le_of_lt (Nat.mod_le _ _) (lt_of_lt_of_le hb (Nat.pow_le_pow_right (by omega) (by omega)))
  rw [shiftIn_eq, BitVec.toNat_or, BitVec.toNat_shiftLeft, BitVec.toNat_setWidth]
  exact Nat.or_lt_two_pow hshift hbyte

/-- A tick keeps the invariant (44_sequencer.md R129 to R131). -/
theorem wf_advancePull {op : PullOp} {cnt : Nat} {acc maxr : Word} (b : Byte)
    (h : (Sequencer.busy op cnt acc maxr).wf = true) : (advancePull op cnt (shiftIn acc b) maxr).wf = true := by
  obtain ⟨hpos, h8, hacc, hshort, hmaxr⟩ := Sequencer.wf_busy_iff.mp h
  rcases Nat.lt_or_ge 1 cnt with hmore | hlast
  · rw [advancePull_more op _ maxr hmore]
    have hlong : ¬ (op = .byte ∨ op = .bool) := fun hop => hmore.ne' (hshort hop).1
    have hroom : 8 * (8 - (cnt - 1)) = 8 * (8 - cnt) + 8 := by omega
    refine Sequencer.wf_busy_iff.mpr ⟨by omega, by omega, ?_, fun hop => absurd hop hlong, hmaxr⟩
    rw [hroom]
    exact toNat_shiftIn_lt b hacc
  · rw [advancePull_last op _ maxr hlast]
    rcases finishPull_cases op (shiftIn acc b) maxr with ⟨data, hresp⟩ | ⟨-, -, hretry⟩
    · rw [hresp]
      exact Sequencer.wf_resp_ok data
    · rw [hretry]
      exact Sequencer.wf_start (by omega) (by omega) ⟨by simp, by simp⟩

/-- Accepting a command gives the invariant, whatever was before (44_sequencer.md R128). -/
theorem wf_acceptEffect (i : Instr) (c : Configuration Config.hash) : (acceptEffect i c).seq.wf = true := by
  cases i with
  | newDefault | newWithSeed | reserved6 | reserved7 => rfl
  | nextByte | nextBool | nextU64 | nextU64Max =>
    exact Sequencer.wf_start (by omega) (by omega) ⟨by simp, by simp⟩

/-- Settles O41: each of the five kinds of step keeps the invariant. -/
theorem stepKeepsSequencerInvariant : Obligations.StepKeepsSequencerInvariant := by
  unfold Obligations.StepKeepsSequencerInvariant State.wf
  intro s t hwf h
  obtain ⟨-, ⟨-, -, hc⟩ | ⟨w, -, -, -, hc⟩ | ⟨_, _, _, _, -, -, hs, hc⟩ | ⟨_, _, -, -, -, hc⟩ | ⟨-, -, -, hc⟩⟩ :=
    step_cases h
  · rw [hc]; rfl
  · rw [hc]; exact wf_acceptEffect (decode w) s.toConfiguration
  · rw [hc, Configuration.tick_busy_seq hs]
    exact wf_advancePull _ (hs ▸ hwf)
  · rw [hc]; rfl
  · rw [hc]; exact hwf

/-- Settles O42: the reset sequencer is Idle, in which the registers have no value. -/
theorem resetHasSequencerInvariant : Obligations.ResetHasSequencerInvariant := rfl

end Sys2Proof.Machine
end

section
/-! Runs of ticks: the commands at the operation level, and what the sequencer reaches by as many ticks
(44_sequencer.md R129 to R131, R135). -/

open Sys2Proof.Claims

namespace Sys2Proof.Machine

/-! ### Runs of ticks -/

section ticks
variable {H : Hash}

/-- The configuration after `n` ticks. -/
def Configuration.ticks (n : Nat) (c : Configuration H) : Configuration H := Configuration.tick^[n] c

@[simp] theorem Configuration.ticks_zero (c : Configuration H) : c.ticks 0 = c := rfl

theorem Configuration.ticks_succ (n : Nat) (c : Configuration H) : c.ticks (n + 1) = c.tick.ticks n := rfl

theorem Configuration.ticks_add (n m : Nat) (c : Configuration H) : c.ticks (n + m) = (c.ticks n).ticks m := by
  rw [Nat.add_comm]
  exact Function.iterate_add_apply _ m n c

theorem Configuration.ticks_succ_last (n : Nat) (c : Configuration H) : c.ticks (n + 1) = (c.ticks n).tick :=
  Configuration.ticks_add n 1 c

/-- The sequencer is Busy with the operation `op` and the bound `maxr`. -/
def Configuration.IsPulling (c : Configuration H) (op : PullOp) (maxr : Word) : Prop :=
  ∃ cnt acc, c.seq = .busy op cnt acc maxr

/-- It is so before each of the next `n` ticks. -/
def Configuration.PullingFor (n : Nat) (c : Configuration H) (op : PullOp) (maxr : Word) : Prop :=
  ∀ k < n, (c.ticks k).IsPulling op maxr

variable {c : Configuration H} {op : PullOp} {maxr : Word}

theorem Configuration.pullingFor_zero : c.PullingFor 0 op maxr := fun k hk => absurd hk (Nat.not_lt_zero k)

theorem Configuration.PullingFor.add {n m : Nat} (h : c.PullingFor n op maxr)
    (h' : (c.ticks n).PullingFor m op maxr) : c.PullingFor (n + m) op maxr := by
  intro k hk
  by_cases hkn : k < n
  · exact h k hkn
  · have hlater := h' (k - n) (by omega)
    rwa [← Configuration.ticks_add, Nat.add_sub_cancel' (not_lt.mp hkn)] at hlater

theorem Configuration.PullingFor.succ {n : Nat} (h : c.IsPulling op maxr)
    (h' : c.tick.PullingFor n op maxr) : c.PullingFor (n + 1) op maxr := by
  intro k hk
  cases k with
  | zero => exact h
  | succ k => exact h' k (by omega)

/-- Ticks do nothing to a response (44_sequencer.md R126). -/
theorem Configuration.ticks_resp {data : Word} {err : Bool} (h : c.seq = .resp data err) (n : Nat) : c.ticks n = c := by
  induction n with
  | zero => rfl
  | succ n ih => rw [Configuration.ticks_succ, Configuration.tick_resp h, ih]

/-- So a run of ticks comes to one response only, however long it is. -/
theorem Configuration.ticks_resp_unique {n m : Nat} {data data' : Word} {err err' : Bool}
    (hn : (c.ticks n).seq = .resp data err) (hm : (c.ticks m).seq = .resp data' err') : c.ticks n = c.ticks m := by
  rcases Nat.le_total n m with hle | hle
  · rw [← Nat.add_sub_cancel' hle, Configuration.ticks_add, Configuration.ticks_resp hn]
  · rw [← Nat.add_sub_cancel' hle, Configuration.ticks_add, Configuration.ticks_resp hm]

/-- With `n + 1` bytes to pull, `n + 1` ticks run the packing loop and end the pull. -/
theorem Configuration.ticks_pull {n : Nat} {acc : Word} (h : c.seq = .busy op (n + 1) acc maxr) :
    c.PullingFor (n + 1) op maxr ∧ (c.ticks (n + 1)).gen = (pullBytes H (n + 1) c.gen acc).1
      ∧ (c.ticks (n + 1)).seq = finishPull op (pullBytes H (n + 1) c.gen acc).2 maxr := by
  induction n generalizing c acc with
  | zero =>
    refine ⟨.succ ⟨_, _, h⟩ Configuration.pullingFor_zero, Configuration.tick_busy_gen h, ?_⟩
    exact (Configuration.tick_busy_seq h).trans (advancePull_last op _ maxr le_rfl)
  | succ n ih =>
    have hgen : c.tick.gen = (transition H c.gen).1 := Configuration.tick_busy_gen h
    have hseq : c.tick.seq = .busy op (n + 1) (shiftIn acc (transition H c.gen).2) maxr :=
      (Configuration.tick_busy_seq h).trans (advancePull_more op _ maxr (by omega))
    obtain ⟨hbusy, htgen, htseq⟩ := ih hseq
    rw [hgen] at htgen htseq
    exact ⟨.succ ⟨_, _, h⟩ hbusy, htgen, htseq⟩

/-! ### The operation level -/

/-- The configuration in which an operation leaves the block: its pair, and its response offered. -/
def OpResult.configuration (r : OpResult H) : Configuration H :=
  { state := r.gen.1, hctx := r.gen.2, seq := .resp r.data r.err }

@[simp] theorem OpResult.configuration_gen (r : OpResult H) : r.configuration.gen = r.gen := rfl
@[simp] theorem OpResult.configuration_seq (r : OpResult H) : r.configuration.seq = .resp r.data r.err := rfl

/-- The configuration at the start of a draw of `NEXT_U64_MAX` (44_sequencer.md R128, R131). -/
def Configuration.AtDraw (c : Configuration H) (max : Word) : Prop := c.seq = .busy .u64Max 8 0 max

variable {max : Word}

/-- One draw is eight ticks, through which the sequencer is pulling. -/
theorem Configuration.AtDraw.pullingFor (h : c.AtDraw max) : c.PullingFor 8 .u64Max max := by
  obtain ⟨hbusy, -, -⟩ := Configuration.ticks_pull h
  exact hbusy

theorem Configuration.AtDraw.ticks_gen (h : c.AtDraw max) : (c.ticks 8).gen = (opDraw H max c.gen).1 := by
  obtain ⟨-, hgen, -⟩ := Configuration.ticks_pull h
  exact hgen

theorem Configuration.AtDraw.ticks_seq (h : c.AtDraw max) :
    (c.ticks 8).seq = finishPull .u64Max (pullBytes H 8 c.gen 0).2 max := by
  obtain ⟨-, -, hseq⟩ := Configuration.ticks_pull h
  exact hseq

/-- An accepted draw offers its candidate. -/
theorem Configuration.AtDraw.accepted (h : c.AtDraw max) (hacc : accepts (opDraw H max c.gen).2 max = true) :
    (c.ticks 8).seq = .resp (opDraw H max c.gen).2 false :=
  h.ticks_seq.trans (finishPull_accepted hacc)

/-- A rejected draw starts the next one. -/
theorem Configuration.AtDraw.rejected (h : c.AtDraw max) (hrej : accepts (opDraw H max c.gen).2 max = false) :
    (c.ticks 8).AtDraw max :=
  h.ticks_seq.trans (finishPull_rejected hrej)

/-- If `NEXT_U64_MAX` ends at the operation level, after any number of draws, as many ticks lead to its result, and the
sequencer is pulling until then (44_sequencer.md R135). -/
theorem opNextU64Max_ticks {fuel : Nat} {r : OpResult H} (h : c.AtDraw max)
    (hr : opNextU64Max H max fuel c.gen = some r) :
    c.PullingFor r.ticks .u64Max max ∧ c.ticks r.ticks = r.configuration := by
  induction fuel generalizing c r with
  | zero => cases hr
  | succ fuel ih =>
    rw [opNextU64Max_succ] at hr
    cases hacc : accepts (opDraw H max c.gen).2 max with
    | true =>
      rw [hacc, if_pos rfl] at hr
      cases hr
      exact ⟨h.pullingFor, Configuration.ext_gen h.ticks_gen (h.accepted hacc)⟩
    | false =>
      rw [hacc, if_neg Bool.false_ne_true, ← h.ticks_gen, Option.map_eq_some_iff] at hr
      obtain ⟨r', hr', rfl⟩ := hr
      obtain ⟨hbusy', hend⟩ := ih (h.rejected hacc) hr'
      refine ⟨Nat.add_comm 8 r'.ticks ▸ h.pullingFor.add hbusy', ?_⟩
      rw [Nat.add_comm, Configuration.ticks_add, hend]
      rfl

/-- If so many draws do not end `NEXT_U64_MAX`, the sequencer is pulling through all of them. -/
theorem pullingFor_of_opNextU64Max_none {fuel : Nat} (h : c.AtDraw max) (hnone : opNextU64Max H max fuel c.gen = none) :
    c.PullingFor (8 * fuel) .u64Max max := by
  induction fuel generalizing c with
  | zero => exact Configuration.pullingFor_zero
  | succ fuel ih =>
    rw [opNextU64Max_succ] at hnone
    cases hacc : accepts (opDraw H max c.gen).2 max with
    | true => rw [hacc, if_pos rfl] at hnone; cases hnone
    | false =>
      rw [hacc, if_neg Bool.false_ne_true, ← h.ticks_gen, Option.map_eq_none_iff] at hnone
      rw [Nat.mul_succ, Nat.add_comm]
      exact h.pullingFor.add (ih (h.rejected hacc) hnone)

/-- `NEXT_U64_MAX` never ends at the operation level exactly when its run of ticks is Busy for ever
(44_sequencer.md R135, converse). -/
theorem opNextU64Max_none_iff (h : c.AtDraw max) :
    (∀ fuel, opNextU64Max H max fuel c.gen = none) ↔ ∀ n, (c.ticks n).IsPulling .u64Max max := by
  constructor
  · exact fun hnone n => pullingFor_of_opNextU64Max_none h (hnone (n + 1)) n (by omega)
  · intro hbusy fuel
    rw [Option.eq_none_iff_forall_ne_some]
    intro r hr
    obtain ⟨_, _, hseq⟩ := hbusy r.ticks
    rw [(opNextU64Max_ticks h hr).2] at hseq
    cases hseq

end ticks

/-- Every command that ends at the operation level: after its acceptance, as many ticks as it has transitions lead to
its result, and the sequencer is Busy until then (44_sequencer.md R135). -/
theorem operate_ticks {c : Configuration Config.hash} {i : Instr} {fuel : Nat} {r : OpResult Config.hash}
    (hr : operate Config.hash Config.rngSeed fuel i c.gen = some r) :
    (∃ op maxr, (acceptEffect i c).PullingFor r.ticks op maxr) ∧ (acceptEffect i c).ticks r.ticks = r.configuration := by
  cases i with
  | newDefault | newWithSeed | reserved6 | reserved7 =>
    cases hr
    exact ⟨⟨.byte, 0, Configuration.pullingFor_zero⟩, rfl⟩
  | nextByte =>
    cases hr
    obtain ⟨hbusy, hgen, hseq⟩ := (acceptEffect .nextByte c).ticks_pull (n := 0) rfl
    refine ⟨⟨_, _, hbusy⟩, Configuration.ext_gen hgen (hseq.trans ?_)⟩
    rw [pullBytes_succ, pullBytes_zero, shiftIn_zero]
    rfl
  | nextBool =>
    cases hr
    obtain ⟨hbusy, hgen, hseq⟩ := (acceptEffect .nextBool c).ticks_pull (n := 0) rfl
    refine ⟨⟨_, _, hbusy⟩, Configuration.ext_gen hgen (hseq.trans ?_)⟩
    rw [pullBytes_succ, pullBytes_zero, shiftIn_zero, finishPull_bool, BitVec.getLsbD_setWidth]
    rfl
  | nextU64 =>
    cases hr
    obtain ⟨hbusy, hgen, hseq⟩ := (acceptEffect .nextU64 c).ticks_pull (n := 7) rfl
    exact ⟨⟨_, _, hbusy⟩, Configuration.ext_gen hgen hseq⟩
  | nextU64Max max =>
    obtain ⟨hbusy, hend⟩ := opNextU64Max_ticks (c := acceptEffect (.nextU64Max max) c) rfl hr
    exact ⟨⟨_, _, hbusy⟩, hend⟩

/-- A command ends at the operation level, unless it is a `NEXT_U64_MAX` that is Busy for ever. -/
theorem operate_ends_or_pulls_forever (i : Instr) (c : Configuration Config.hash) :
    (∃ fuel r, operate Config.hash Config.rngSeed fuel i c.gen = some r)
      ∨ ∃ max, ∀ n, ((acceptEffect i c).ticks n).IsPulling .u64Max max := by
  cases i with
  | nextU64Max max =>
    by_cases hnone : ∀ fuel, opNextU64Max Config.hash max fuel c.gen = none
    · exact .inr ⟨max, (opNextU64Max_none_iff (c := acceptEffect (.nextU64Max max) c) rfl).mp hnone⟩
    · simp only [not_forall, ← ne_eq, Option.ne_none_iff_exists'] at hnone
      exact .inl hnone
  | newDefault | newWithSeed | nextByte | nextU64 | nextBool | reserved6 | reserved7 => exact .inl ⟨0, _, rfl⟩

/-- A response that ticks lead to is the operation level's answer (44_sequencer.md R135). -/
theorem operate_of_ticks_resp {i : Instr} {c : Configuration Config.hash} {n : Nat} {data : Word} {err : Bool}
    (h : ((acceptEffect i c).ticks n).seq = .resp data err) :
    ∃ fuel r, operate Config.hash Config.rngSeed fuel i c.gen = some r
      ∧ (acceptEffect i c).ticks n = r.configuration := by
  rcases operate_ends_or_pulls_forever i c with ⟨fuel, r, hr⟩ | ⟨max, hbusy⟩
  · have hend : (acceptEffect i c).ticks r.ticks = r.configuration := (operate_ticks hr).2
    refine ⟨fuel, r, hr, ?_⟩
    rw [← hend]
    exact Configuration.ticks_resp_unique h (congrArg Configuration.seq hend)
  · obtain ⟨_, _, hseq⟩ := hbusy n
    rw [h] at hseq
    cases hseq

/-! ### Runs of the machine -/

/-- A reset-free machine runs through ticks for as long as it is Busy. -/
theorem runs_ticks {n : Nat} {s : State} {op : PullOp} {maxr : Word} (hr : s.noReset n = true)
    (hbusy : s.toConfiguration.PullingFor n op maxr) :
    Runs n s { toConfiguration := s.toConfiguration.ticks n, inputs := s.inputs.drop n } := by
  induction n generalizing s with
  | zero => rfl
  | succ n ih =>
    obtain ⟨_, _, hs⟩ := hbusy 0 (by omega)
    obtain ⟨hrst, hrest⟩ := (noReset_succ_iff (t := s.sampled.tickBlock) rfl).mp hr
    have hrun := ih hrest fun k hk => hbusy (k + 1) (by omega)
    rw [State.tickBlock_inputs, State.sampled_inputs, List.drop_tail] at hrun
    exact ⟨_, step_of_busy hrst hs, hrun⟩

/-- A command that is taken runs through its acceptance and ticks for as long as it is Busy. -/
theorem runs_takes_ticks {n : Nat} {s : State} {i : Instr} {op : PullOp} {maxr : Word} (h : Takes s i)
    (hr : s.noReset (n + 1) = true) (hbusy : (acceptEffect i s.toConfiguration).PullingFor n op maxr) :
    Runs (n + 1) s
      { toConfiguration := (acceptEffect i s.toConfiguration).ticks n, inputs := s.inputs.drop (n + 1) } := by
  have hstep := step_eq_of_takes h
  obtain ⟨-, hrest⟩ := (noReset_succ_iff (step_cases hstep).1).mp hr
  have hrun := runs_ticks hrest hbusy
  rw [State.mapConfiguration_inputs, State.sampled_inputs, List.drop_tail] at hrun
  exact ⟨_, hstep, hrun⟩

/-- A run without reset for so long is one for any shorter time. -/
theorem noReset_of_le {s : State} {n m : Nat} (h : s.noReset m = true) (hle : n ≤ m) : s.noReset n = true := by
  unfold State.noReset at *
  rw [List.all_eq_true] at *
  exact fun p hp => h p (List.take_subset_take_left _ hle hp)

/-- Settles O43: after acceptance the run is a run of ticks, which `operate_ticks` describes. -/
theorem sequencerRefinesOperations : Obligations.SequencerRefinesOperations := by
  unfold Obligations.SequencerRefinesOperations
  intro s i fuel r htakes hop hr
  obtain ⟨⟨op, maxr, hbusy⟩, hend⟩ := operate_ticks (c := s.toConfiguration) hop
  refine ⟨?_, fun k t hk hrun => ?_⟩
  · have hrun := runs_takes_ticks htakes hr hbusy
    rwa [hend] at hrun
  · have hshort := runs_takes_ticks htakes (noReset_of_le hr (by omega : k + 1 ≤ r.ticks + 1))
      fun j hj => hbusy j (hj.trans hk)
    rw [runs_unique hrun hshort]
    obtain ⟨cnt, acc, hseq⟩ := hbusy k hk
    exact ⟨op, cnt, acc, maxr, hseq⟩

/-- Settles O44: never to end is to be pulling for ever, and a pulling machine runs through ticks. -/
theorem nonterminationIsInfiniteBusyRun : Obligations.NonterminationIsInfiniteBusyRun := by
  unfold Obligations.NonterminationIsInfiniteBusyRun
  refine ⟨fun H c max => ?_, fun s max n htakes hr hbusy => ?_⟩
  · exact opNextU64Max_none_iff (c := c.beginPull .u64Max 8 max) rfl
  · exact runs_takes_ticks htakes hr hbusy

/-! ### A hash that never gives an answer -/

/-- With every digest `0xFF`, every byte of the stream is `0xFF`. -/
theorem transition_byte_of_stuck {H : Hash} (hH : ∀ h, (H.finish h).2 = 0xFF) (g : Gen H) :
    (transition H g).2 = 0xFF := by
  rw [transition_eq, hH]
  exact (by decide : fold8 0xFF = 0xFF)

/-- So every draw packs all ones. -/
theorem streamBytes_of_stuck {H : Hash} (hH : ∀ h, (H.finish h).2 = 0xFF) (n : Nat) (g : Gen H) :
    streamBytes H n g = List.replicate n 0xFF := by
  induction n generalizing g with
  | zero => rfl
  | succ n ih => rw [streamBytes_succ, transition_byte_of_stuck hH, ih, List.replicate_succ]

/-- The candidate of every draw is the mask itself. -/
theorem opDraw_of_stuck {H : Hash} (hH : ∀ h, (H.finish h).2 = 0xFF) (max : Word) (g : Gen H) :
    (opDraw H max g).2 = mask max := by
  have hones : (List.replicate 8 (0xFF : Byte)).foldl shiftIn 0 = BitVec.allOnes 64 := by decide
  rw [opDraw, pullBytes_eq, streamBytes_of_stuck hH, hones, BitVec.allOnes_and]

/-- A bound below its mask never ends under such a hash (43_rejection_selector.md R117). -/
theorem opNextU64Max_of_stuck {H : Hash} (hH : ∀ h, (H.finish h).2 = 0xFF) {max : Word} (hmax : mask max ≠ max)
    (fuel : Nat) (g : Gen H) : opNextU64Max H max fuel g = none := by
  have hrej : accepts (mask max) max = false :=
    (accepts_eq_false_iff _ _).mpr (BitVec.not_le.mp fun hle => hmax (BitVec.le_antisymm hle (le_mask max)))
  induction fuel generalizing g with
  | zero => rfl
  | succ fuel ih =>
    rw [opNextU64Max_succ, opDraw_of_stuck hH, hrej, if_neg Bool.false_ne_true, ih, Option.map_none]

/-- Settles O35: every draw is rejected, so the operation level never ends, and the ticks are Busy for ever. -/
theorem stuckHashNeverResponds : Obligations.StuckHashNeverResponds := by
  unfold Obligations.StuckHashNeverResponds
  intro H c max hH hmax
  exact (opNextU64Max_none_iff (c := c.beginPull .u64Max 8 max) rfl).mp fun fuel =>
    opNextU64Max_of_stuck hH hmax fuel _

end Sys2Proof.Machine
end

section
/-! What the pulling commands answer (42_byte_extraction.md R90 to R93, 43_rejection_selector.md R114 to R119). -/

open Sys2Proof.Claims

namespace Sys2Proof.Machine

/-! ### One-byte pulls -/

/-- Settles O29: at the operation level `NEXT_BYTE` answers its one byte, the fold of the new `STATE`. -/
theorem nextByteAnswersFoldedDigest : Obligations.NextByteAnswersFoldedDigest := by
  unfold Obligations.NextByteAnswersFoldedDigest
  intro s htakes hr
  exact (sequencerRefinesOperations s .nextByte 0 (opNextByte Config.hash s.gen) htakes rfl hr).1

/-- The parity of a byte is its bit 0. -/
theorem even_iff_getLsbD_zero (b : Byte) : b.toNat % 2 = 0 ↔ b.getLsbD 0 = false := by
  rw [BitVec.getLsbD, Nat.testBit_zero, decide_eq_false_iff_not]
  omega

/-- Settles O30: at the operation level `NEXT_BOOL` answers by bit 0 of its byte, which is its parity. -/
theorem nextBoolAnswersParity : Obligations.NextBoolAnswersParity := by
  unfold Obligations.NextBoolAnswersParity
  intro s htakes hr g
  have hdata : (opNextBool Config.hash s.gen).data = if g.2.toNat % 2 = 0 then 1 else 0 := by
    simp only [even_iff_getLsbD_zero]
    change (if g.2.getLsbD 0 then 0 else 1) = _
    cases g.2.getLsbD 0 <;> rfl
  rw [← hdata]
  exact (sequencerRefinesOperations s .nextBool 0 (opNextBool Config.hash s.gen) htakes rfl hr).1

/-! ### Eight-byte pulls -/

/-- A taken command that pulls eight bytes ends its pull nine steps later with `PACK8` of the stream's next eight
bytes, the pair eight transitions on. -/
theorem runs_of_takes_pull_eight {s : State} {b : Bytes8} {i : Instr} {op : PullOp} {maxr : Word} (h : Takes s i)
    (hi : acceptEffect i = .beginPull op 8 maxr) (hr : s.noReset 9 = true)
    (hb : b.toList = streamBytes Config.hash 8 s.gen) :
    Runs 9 s { state := (afterTransitions Config.hash 8 s.gen).1, hctx := (afterTransitions Config.hash 8 s.gen).2,
               seq := finishPull op (pack8 b) maxr, inputs := s.inputs.drop 9 } := by
  obtain ⟨t, hrun, hgen, hseq⟩ := runs_of_takes_pull h hi hr
  rw [← hb, foldl_shiftIn_eq_pack8] at hseq
  have ht : t = { state := (afterTransitions Config.hash 8 s.gen).1, hctx := (afterTransitions Config.hash 8 s.gen).2,
                  seq := finishPull op (pack8 b) maxr, inputs := s.inputs.drop 9 } :=
    State.ext_parts (Configuration.ext_gen hgen hseq) (runs_inputs hrun)
  exact ht ▸ hrun

/-- Settles O31: `NEXT_U64` answers its pull whole. -/
theorem nextU64AnswersPackedBytes : Obligations.NextU64AnswersPackedBytes := by
  unfold Obligations.NextU64AnswersPackedBytes
  intro s b htakes hr hb
  exact runs_of_takes_pull_eight htakes rfl hr hb

/-- Settles O32: a pull of `NEXT_U64_MAX` ends by the comparison of its candidate with the bound. -/
theorem nextU64MaxFirstDraw : Obligations.NextU64MaxFirstDraw := by
  unfold Obligations.NextU64MaxFirstDraw
  intro s b max htakes hr hb g v
  have hrun := runs_of_takes_pull_eight htakes rfl hr hb
  rw [finishPull_u64Max] at hrun
  exact hrun

/-- A bound that is its own mask accepts every candidate: a masked word is at most the mask. -/
theorem finishPull_of_mask_eq {max : Word} (h : mask max = max) (acc : Word) :
    finishPull .u64Max acc max = .resp (acc &&& max) false := by
  rw [finishPull_u64Max, h, if_pos (and_le_right acc max)]

/-- Settles O33: the bounds `2^k - 1` are their own masks, and such a bound accepts its first candidate. -/
theorem allOnesBoundAnswersAtFirstDraw : Obligations.AllOnesBoundAnswersAtFirstDraw := by
  unfold Obligations.AllOnesBoundAnswersAtFirstDraw
  refine ⟨fun k hk => mask_lowOnes hk, fun s b max htakes hr hmax hb => ?_⟩
  have hrun := runs_of_takes_pull_eight htakes rfl hr hb
  rw [finishPull_of_mask_eq hmax] at hrun
  refine ⟨_, hrun, rfl, rfl, ?_, ?_⟩
  · rintro rfl
    exact congrArg (Sequencer.resp · false) BitVec.and_zero
  · rintro rfl
    exact congrArg (Sequencer.resp · false) BitVec.and_allOnes

/-! ### The range of a bounded answer -/

/-- A sequencer that works on `NEXT_U64_MAX max`, or offers an answer in its range (43_rejection_selector.md R118). -/
def Sequencer.BoundedBy (max : Word) (q : Sequencer) : Prop :=
  (∃ cnt acc, q = .busy .u64Max cnt acc max) ∨ ∃ data, q = .resp data false ∧ data ≤ max ∧ data &&& mask max = data

/-- An accepted candidate is at most the bound and lies within the mask. -/
theorem boundedBy_finishPull (acc max : Word) : (finishPull .u64Max acc max).BoundedBy max := by
  rw [finishPull_u64Max]
  by_cases hle : acc &&& mask max ≤ max
  · rw [if_pos hle]
    exact .inr ⟨_, rfl, hle, by rw [BitVec.and_assoc, BitVec.and_self]⟩
  · rw [if_neg hle]
    exact .inl ⟨_, _, rfl⟩

/-- A tick of `NEXT_U64_MAX` stays in its range. -/
theorem boundedBy_advancePull (cnt : Nat) (acc max : Word) : (advancePull .u64Max cnt acc max).BoundedBy max := by
  rcases Nat.lt_or_ge 1 cnt with hmore | hlast
  · rw [advancePull_more _ _ _ hmore]
    exact .inl ⟨_, _, rfl⟩
  · rw [advancePull_last _ _ _ hlast]
    exact boundedBy_finishPull acc max

/-- A reset-free step that delivers nothing keeps the range. -/
theorem boundedBy_step {s t : State} {max : Word} (hs : s.seq.BoundedBy max) (hr : s.pins.rst = false)
    (hstep : step s = .next t) (hdel : s.deliveredNow = []) : t.seq.BoundedBy max := by
  rcases hs with ⟨cnt, acc, hs⟩ | ⟨data, hs, hrange⟩
  · rw [step_busy hr hs] at hstep
    cases hstep
    exact boundedBy_advancePull _ _ _
  · obtain ⟨-, hc⟩ | ⟨hdel', -⟩ := step_resp_cases hs hr hstep
    · rw [hc]
      exact .inr ⟨data, hs, hrange⟩
    · rw [hdel] at hdel'
      cases hdel'

/-- So does a reset-free run that delivers nothing. -/
theorem boundedBy_runs {n : Nat} {s t : State} {max : Word} (hs : s.seq.BoundedBy max) (hr : s.noReset n = true)
    (hrun : Runs n s t) (hdel : deliveredWords n s = []) : t.seq.BoundedBy max := by
  induction n generalizing s with
  | zero => exact runs_zero.mp hrun ▸ hs
  | succ n ih =>
    obtain ⟨u, hstep, hrest⟩ := runs_succ.mp hrun
    obtain ⟨hrst, hru⟩ := (noReset_succ_iff (step_cases hstep).1).mp hr
    rw [deliveredWords_succ hstep, List.append_eq_nil_iff] at hdel
    exact ih (boundedBy_step hs hrst hstep hdel.1) hru hrest hdel.2

/-- Settles O34: acceptance starts in the range, and the run keeps it up to its response. -/
theorem boundedAnswerInRange : Obligations.BoundedAnswerInRange := by
  unfold Obligations.BoundedAnswerInRange
  intro s t n max data err htakes hr hrun hacc hdel ht
  cases n with
  | zero => exact absurd rfl hacc
  | succ n =>
    obtain ⟨u, hstep, hrest⟩ := runs_succ.mp hrun
    obtain ⟨-, hru⟩ := (noReset_succ_iff (step_cases hstep).1).mp hr
    rw [deliveredWords_succ hstep, List.append_eq_nil_iff] at hdel
    cases (step_eq_of_takes htakes).symm.trans hstep
    rcases boundedBy_runs (max := max) (.inl ⟨8, 0, rfl⟩) hru hrest hdel.2 with ⟨_, _, hbusy⟩ | ⟨v, hresp, hle, hmask⟩
    · rw [ht] at hbusy
      cases hbusy
    · rw [ht] at hresp
      cases hresp
      exact ⟨rfl, hle, hmask⟩

end Sys2Proof.Machine
end

section
/-! An attentive host: scripts of commands, the consistency of the commands with each other, and the constructions
(30_encoding.md R60, 40_construction.md R72, R74, 42_byte_extraction.md R95, R96). -/

open Sys2Proof.Claims

namespace Sys2Proof.Machine

/-! ### The run of a host script -/

/-- Nothing is delivered in a step outside Resp. -/
theorem State.deliveredNow_of_not_resp {s : State} (h : ∀ data err, s.seq ≠ .resp data err) : s.deliveredNow = [] := by
  cases he : s.event with
  | deliver => simp [State.deliveredNow, he, State.rsp_of_not_resp h]
  | accept | tick | reset | none => simp [State.deliveredNow, he]

/-- A run that offers no response before its end delivers none. -/
theorem deliveredWords_of_no_resp {n : Nat} {s : State}
    (h : ∀ k t, k < n → Runs k s t → ∀ data err, t.seq ≠ .resp data err) : deliveredWords n s = [] := by
  induction n generalizing s with
  | zero => rfl
  | succ n ih =>
    obtain ⟨u, hstep⟩ := exists_step s
    rw [deliveredWords_succ hstep, State.deliveredNow_of_not_resp (h 0 s (by omega) rfl),
      ih fun k t hk hrun => h (k + 1) t (by omega) ⟨u, hstep, hrun⟩, List.append_nil]

/-- A command that ends at the operation level delivers nothing up to the step in which its response is offered. -/
theorem deliveredWords_of_takes {s : State} {i : Instr} {fuel : Nat} {r : OpResult Config.hash} (h : Takes s i)
    (hop : operate Config.hash Config.rngSeed fuel i s.gen = some r) (hr : s.noReset (r.ticks + 1) = true) :
    deliveredWords (r.ticks + 1) s = [] := by
  refine deliveredWords_of_no_resp fun k t hk hrun data err hresp => ?_
  cases k with
  | zero =>
    rw [← runs_zero.mp hrun, (step_of_takes h).1] at hresp
    cases hresp
  | succ k =>
    obtain ⟨_, _, _, _, hbusy⟩ := (sequencerRefinesOperations s i fuel r h hop hr).2 k t (by omega) hrun
    rw [hresp] at hbusy
    cases hbusy

/-- An Idle block accepts the word that the script of a command begins with. -/
theorem takes_of_hostScript {s : State} {i : Instr} {ticks : Nat} {rest : List PortIn} (hs : s.seq = .idle)
    (hin : s.inputs = hostScript i ticks ++ rest) : Takes s i := by
  have hpins : s.pins = .offer (encode i) := by rw [State.pins, hin]; rfl
  exact ⟨encode i, event_eq_accept_iff.mpr ⟨hs, by rw [hpins]; rfl, by rw [hpins]; rfl, by rw [hpins]; rfl⟩,
    decode_encode i⟩

/-- The samples of a script before the one that takes the response. -/
theorem take_hostScript (i : Instr) (ticks : Nat) (rest : List PortIn) :
    (hostScript i ticks ++ rest).take (ticks + 1) = .offer (encode i) :: List.replicate ticks .quiet := by
  simp [hostScript]

/-- What the host drives once the response is offered: it takes it. -/
theorem drop_hostScript (i : Instr) (ticks : Nat) (rest : List PortIn) :
    (hostScript i ticks ++ rest).drop (ticks + 1) = .take :: rest := by
  simp [hostScript]

/-- The script asserts no reset. -/
theorem noReset_of_hostScript {s : State} {i : Instr} {ticks : Nat} {rest : List PortIn}
    (hin : s.inputs = hostScript i ticks ++ rest) : s.noReset (ticks + 1) = true := by
  rw [State.noReset, hin, take_hostScript, List.all_eq_true]
  intro p hp
  rcases List.mem_cons.mp hp with rfl | hp
  · rfl
  · rw [List.eq_of_mem_replicate hp]
    rfl

/-- The Idle state in which an operation leaves the block once its response has been delivered. -/
def OpResult.done (r : OpResult Config.hash) (rest : List PortIn) : State :=
  { state := r.gen.1, hctx := r.gen.2, seq := .idle, inputs := rest }

/-- The script of a command, from Idle, delivers the operation level's answer and leaves the block Idle with its pair. -/
theorem runs_hostScript {s : State} {i : Instr} {fuel : Nat} {r : OpResult Config.hash} {rest : List PortIn}
    (hs : s.seq = .idle) (hop : operate Config.hash Config.rngSeed fuel i s.gen = some r)
    (hin : s.inputs = hostScript i r.ticks ++ rest) :
    Runs (r.ticks + 2) s (r.done rest) ∧ deliveredWords (r.ticks + 2) s = [responseWord r.data r.err] := by
  have htakes : Takes s i := takes_of_hostScript hs hin
  have hr : s.noReset (r.ticks + 1) = true := noReset_of_hostScript hin
  obtain ⟨hrun, -⟩ := sequencerRefinesOperations s i fuel r htakes hop hr
  rw [hin, drop_hostScript] at hrun
  obtain ⟨hstep, hdel⟩ := step_resp_ready
    (s := { state := r.gen.1, hctx := r.gen.2, seq := .resp r.data r.err, inputs := .take :: rest }) rfl rfl rfl
  refine ⟨runs_succ_last.mpr ⟨_, hrun, hstep⟩, ?_⟩
  rw [deliveredWords_succ_last hrun hstep, deliveredWords_of_takes htakes hop hr, hdel, List.nil_append]

/-! ### Consistency of the commands -/

/-- The script of `NEXT_BYTE` delivers the byte of one transition. -/
theorem runs_nextByte_script {s : State} {rest : List PortIn} (hs : s.seq = .idle)
    (hin : s.inputs = hostScript .nextByte 1 ++ rest) :
    Runs 3 s ((opNextByte Config.hash s.gen).done rest)
      ∧ deliveredWords 3 s = [responseWord ((transition Config.hash s.gen).2.setWidth 64) false] :=
  runs_hostScript (fuel := 0) (r := opNextByte Config.hash s.gen) hs rfl hin

/-- Settles O36: the script is one `NEXT_BYTE` after another, each from where the one before has left the pair. -/
theorem streamDeliversBytesInOrder : Obligations.StreamDeliversBytesInOrder := by
  unfold Obligations.StreamDeliversBytesInOrder
  intro s n rest hs hin
  induction n generalizing s with
  | zero =>
    have hend : s = { state := s.state, hctx := s.hctx, seq := .idle, inputs := rest } :=
      State.ext_parts (Configuration.ext_gen rfl hs) hin
    exact ⟨hend, rfl⟩
  | succ n ih =>
    rw [streamScript, List.append_assoc] at hin
    obtain ⟨hfirst, hdel⟩ := runs_nextByte_script hs hin
    obtain ⟨hrest, hdel'⟩ := ih ((opNextByte Config.hash s.gen).done (streamScript n ++ rest)) rfl rfl
    have hlen : 3 * (n + 1) = 3 + 3 * n := by omega
    rw [hlen]
    exact ⟨runs_add hfirst hrest, (deliveredWords_add hfirst).trans (congrArg₂ (· ++ ·) hdel hdel')⟩

/-- Eight bytes are the bytes of a `Bytes8`. -/
theorem Bytes8.exists_toList_eq {l : List Byte} (h : l.length = 8) : ∃ b : Bytes8, b.toList = l := by
  match l, h with
  | [b0, b1, b2, b3, b4, b5, b6, b7], _ => exact ⟨⟨b0, b1, b2, b3, b4, b5, b6, b7⟩, rfl⟩

/-- `NEXT_U64` answers `PACK8` of the stream's next eight bytes, and leaves the pair eight transitions on. -/
theorem opNextU64_eq {H : Hash} {g : Gen H} {b : Bytes8} (hb : b.toList = streamBytes H 8 g) :
    opNextU64 H g = { gen := afterTransitions H 8 g, data := pack8 b, err := false, ticks := 8 } := by
  rw [opNextU64, pullBytes_eq, ← hb, foldl_shiftIn_eq_pack8]

/-- Settles O37: both scripts run through the same eight transitions. -/
theorem eightBytesAreOneU64 : Obligations.EightBytesAreOneU64 := by
  unfold Obligations.EightBytesAreOneU64
  intro s s' rest hs hs' hgen hin hin'
  have hgen' : s'.gen = s.gen := hgen
  obtain ⟨b, hb⟩ := Bytes8.exists_toList_eq (streamBytes_length Config.hash 8 s.gen)
  obtain ⟨hrun, hdel⟩ := streamDeliversBytesInOrder s 8 rest hs hin
  obtain ⟨hrun', hdel'⟩ :=
    runs_hostScript (i := .nextU64) (fuel := 0) (r := opNextU64 Config.hash s'.gen) hs' rfl hin'
  rw [hgen', opNextU64_eq hb] at hrun' hdel'
  refine ⟨b, _, ?_, hdel', hrun, hrun', rfl⟩
  rw [hb]
  exact hdel

/-- `1 - b[0]` by the bit. -/
theorem one_sub_and_one (b : Byte) :
    (1 : Word) - (b.setWidth 64 &&& 1) = if b.getLsbD 0 then 0 else 1 := by
  have hbit : b.setWidth 64 &&& (1 : Word) = if b.getLsbD 0 then 1 else 0 := by
    apply BitVec.eq_of_getLsbD_eq
    intro i hi
    cases i with
    | zero => cases hb : b.getLsbD 0 <;> simp_all
    | succ i => cases hb : b.getLsbD 0 <;> simp
  rw [hbit]
  cases b.getLsbD 0 <;> rfl

/-- Settles O38: both commands make the one transition, and answer by its byte. -/
theorem boolIsParityOfByte : Obligations.BoolIsParityOfByte := by
  unfold Obligations.BoolIsParityOfByte
  intro s s' rest hs hs' hgen hin hin'
  have hgen' : s'.gen = s.gen := hgen
  obtain ⟨hrun, hdel⟩ := runs_nextByte_script hs hin
  obtain ⟨hrun', hdel'⟩ :=
    runs_hostScript (i := .nextBool) (fuel := 0) (r := opNextBool Config.hash s'.gen) hs' rfl hin'
  rw [hgen'] at hrun' hdel'
  refine ⟨(transition Config.hash s.gen).2, _, hdel, ?_, hrun, hrun', rfl⟩
  rw [one_sub_and_one]
  exact hdel'

/-! ### Constructions -/

/-- The state in which accepting a construction leaves the block: nothing is left of what was before
(40_construction.md R74). -/
def constructed (seed : Word) (inputs : List PortIn) : State :=
  { state := seed, hctx := Config.hash.init, seq := .resp 0 false, inputs := inputs }

/-- The acceptance of a construction from an Idle block, by the first sample of its script. -/
theorem step_construct {s : State} {i : Instr} {seed : Word} {rest : List PortIn} (hs : s.seq = .idle)
    (hi : acceptEffect i = .construct seed) (hin : s.inputs = hostScript i 0 ++ rest) :
    step s = .next (constructed seed (.take :: rest)) ∧ s.deliveredNow = [] := by
  have hstep := step_eq_of_takes (takes_of_hostScript hs hin)
  rw [hi] at hstep
  have hnext : s.sampled.mapConfiguration (.construct seed) = constructed seed (.take :: rest) :=
    State.ext_parts rfl (by rw [State.mapConfiguration_inputs, State.sampled_inputs, hin]; rfl)
  exact ⟨hnext ▸ hstep, State.deliveredNow_of_not_resp fun data err => by rw [hs]; nofun⟩

/-- Two machines that step to the same state, delivering alike, deliver alike for ever after. -/
theorem deliveredWords_congr {s s' u : State} (hs : step s = .next u) (hs' : step s' = .next u)
    (hdel : s.deliveredNow = s'.deliveredNow) (n : Nat) : deliveredWords n s = deliveredWords n s' := by
  cases n with
  | zero => rfl
  | succ n => rw [deliveredWords_succ hs, deliveredWords_succ hs', hdel]

/-- A machine that steps to `u` runs on as `u` does. -/
theorem runs_succ_iff_of_step {s u t : State} {n : Nat} (h : step s = .next u) : Runs (n + 1) s t ↔ Runs n u t := by
  rw [runs_succ]
  constructor
  · rintro ⟨v, hv, hrun⟩
    cases h.symm.trans hv
    exact hrun
  · exact fun hrun => ⟨u, h, hrun⟩

/-- Settles O39: the acceptance of the seed leads both machines to one state. -/
theorem reseedingRestartsStream : Obligations.ReseedingRestartsStream := by
  unfold Obligations.ReseedingRestartsStream
  intro s s' a rest n hs hs' hin hin'
  obtain ⟨hstep, hdel⟩ := step_construct hs (i := .newWithSeed a) rfl hin
  obtain ⟨hstep', hdel'⟩ := step_construct hs' (i := .newWithSeed a) rfl hin'
  refine ⟨deliveredWords_congr hstep hstep' (hdel.trans hdel'.symm) n, fun t t' hrun hrun' => ?_⟩
  exact runs_unique ((runs_succ_iff_of_step hstep).mp hrun) ((runs_succ_iff_of_step hstep').mp hrun')

/-- The acknowledgement of a construction, taken at once, leaves the block Idle with the fresh pair. -/
theorem step_constructed (seed : Word) (rest : List PortIn) :
    step (constructed seed (.take :: rest))
        = .next { state := seed, hctx := Config.hash.init, seq := .idle, inputs := rest }
      ∧ (constructed seed (.take :: rest)).deliveredNow = [responseWord 0 false] :=
  step_resp_ready rfl rfl rfl

/-- Settles O40: the two acceptances lead to one state, and taking the acknowledgement leads to the reset state. -/
theorem defaultIsSeedingWithRngSeed : Obligations.DefaultIsSeedingWithRngSeed := by
  unfold Obligations.DefaultIsSeedingWithRngSeed
  intro s s' r rest n hs hs' hin hin' hr
  obtain ⟨hstep, hdel⟩ := step_construct hs (i := .newDefault) rfl hin
  obtain ⟨hstep', hdel'⟩ := step_construct hs' (i := .newWithSeed Config.rngSeed) rfl hin'
  obtain ⟨hack, hackdel⟩ := step_constructed Config.rngSeed rest
  obtain ⟨hreset, -, hresetdel⟩ := resetEventFromAnyConfiguration r (by rw [State.pins, hr]; rfl)
  rw [hr] at hreset
  have hruns : ∀ t, Runs (n + 2) s t ↔ Runs (n + 1) r t := fun t => by
    rw [runs_succ_iff_of_step hstep, runs_succ_iff_of_step hack, runs_succ_iff_of_step hreset]
    rfl
  have hruns' : ∀ t, Runs (n + 2) s' t ↔ Runs (n + 1) r t := fun t => by
    rw [← hruns, runs_succ_iff_of_step hstep, runs_succ_iff_of_step hstep']
  obtain ⟨t, ht⟩ := exists_runs (n + 1) r
  refine ⟨deliveredWords_congr hstep hstep' (hdel.trans hdel'.symm) n, ?_,
    ⟨t, (hruns t).mpr ht, (hruns' t).mpr ht, ht⟩,
    fun t t'' hrun hrun'' => runs_unique ((hruns t).mp hrun) ((hruns' t'').mp hrun''),
    fun t t' hrun hrun' => runs_unique ((hruns t).mp hrun) hrun'⟩
  rw [deliveredWords_succ hstep, deliveredWords_succ hack, deliveredWords_succ hreset, hdel, hackdel, hresetdel]
  rfl

end Sys2Proof.Machine
end

section
/-! Whole runs of any host that asserts no reset: the responses are the operation level's answers, in order
(20_memory.md R48, 10_state.md R34, 44_sequencer.md R135). -/

open Sys2Proof.Claims

namespace Sys2Proof.Machine

/-! ### Answers to a stream of words -/

section answers
variable {g g' g'' : Gen Config.hash} {w : CommandWord} {ws ws' : List CommandWord} {rs rs' : List ResponseWord}

/-- The answer to one more word comes last. -/
theorem Answers.snoc {fuel : Nat} {r : OpResult Config.hash} (h : Answers Config.hash Config.rngSeed g ws rs g')
    (hr : operate Config.hash Config.rngSeed fuel (decode w) g' = some r) :
    Answers Config.hash Config.rngSeed g (ws ++ [w]) (rs ++ [responseWord r.data r.err]) r.gen := by
  induction h with
  | nil g => exact .cons _ _ _ _ _ fuel r hr (.nil _)
  | cons g g' w' ws rs fuel' r' first _ ih => exact .cons _ _ _ _ _ fuel' r' first (ih hr)

/-- Each word has one answer. -/
theorem Answers.length_eq (h : Answers Config.hash Config.rngSeed g ws rs g') : ws.length = rs.length := by
  induction h with
  | nil => rfl
  | cons _ _ _ _ _ _ _ _ _ ih => rw [List.length_cons, List.length_cons, ih]

/-- A configuration that offers a result determines the pair and the response. -/
theorem OpResult.configuration_inj {r r' : OpResult Config.hash} (h : r.configuration = r'.configuration) :
    r.gen = r'.gen ∧ r.data = r'.data ∧ r.err = r'.err := by
  have hseq : Sequencer.resp r.data r.err = .resp r'.data r'.err := congrArg Configuration.seq h
  injection hseq with hdata herr
  exact ⟨congrArg Configuration.gen h, hdata, herr⟩

/-- An Idle configuration with this pair. -/
def Configuration.idleAt {H : Hash} (g : Gen H) : Configuration H := { state := g.1, hctx := g.2, seq := .idle }

/-- What a command answers does not depend on the fuel that suffices for it: both results are the one response that its
ticks lead to. -/
theorem operate_unique {i : Instr} {fuel fuel' : Nat} {r r' : OpResult Config.hash}
    (h : operate Config.hash Config.rngSeed fuel i g = some r)
    (h' : operate Config.hash Config.rngSeed fuel' i g = some r') : r.configuration = r'.configuration := by
  have hend : (acceptEffect i (.idleAt g)).ticks r.ticks = r.configuration := (operate_ticks h).2
  have hend' : (acceptEffect i (.idleAt g)).ticks r'.ticks = r'.configuration := (operate_ticks h').2
  rw [← hend, ← hend']
  exact Configuration.ticks_resp_unique (congrArg Configuration.seq hend) (congrArg Configuration.seq hend')

/-- The answers to a stream of words begin with the answers to its beginning, and go on from where those end. -/
theorem Answers.split (h : Answers Config.hash Config.rngSeed g ws rs g')
    (h' : Answers Config.hash Config.rngSeed g (ws ++ ws') rs' g'') :
    ∃ later, rs' = rs ++ later ∧ Answers Config.hash Config.rngSeed g' ws' later g'' := by
  induction h generalizing rs' with
  | nil => exact ⟨rs', rfl, h'⟩
  | cons g g' w ws rs fuel r first _ ih =>
    cases h' with
    | cons _ _ _ _ rs' fuel' r' first' rest' =>
      obtain ⟨hgen, hdata, herr⟩ := OpResult.configuration_inj (operate_unique first first')
      obtain ⟨later, rfl, hlater⟩ := ih (hgen ▸ rest')
      exact ⟨later, by rw [hdata, herr, List.cons_append], hlater⟩

/-- A stream of words has one list of answers and one end. -/
theorem Answers.unique (h : Answers Config.hash Config.rngSeed g ws rs g')
    (h' : Answers Config.hash Config.rngSeed g ws rs' g'') : rs = rs' ∧ g' = g'' := by
  obtain ⟨later, rfl, hlater⟩ := h.split (ws' := []) (by rwa [List.append_nil])
  cases hlater
  exact ⟨(List.append_nil rs).symm, rfl⟩

end answers

/-! ### The invariant of a run -/

/-- A block that has accepted `ws` and delivered `rs` since it was Idle with the pair `g`: either it is Idle and all
words are answered, or it is so many ticks after the acceptance of the last word, and all words before are answered. -/
inductive Serves (g : Gen Config.hash) (ws : List CommandWord) (rs : List ResponseWord)
    (c : Configuration Config.hash) : Prop where
  | idle (hidle : c.seq = .idle) (hans : Answers Config.hash Config.rngSeed g ws rs c.gen)
  | working (ws' : List CommandWord) (w : CommandWord) (c' : Configuration Config.hash) (k : Nat)
      (hwords : ws = ws' ++ [w]) (hans : Answers Config.hash Config.rngSeed g ws' rs c'.gen)
      (hc : c = (acceptEffect (decode w) c').ticks k)

/-- An accepted command leaves Idle. -/
theorem acceptEffect_seq_ne_idle (i : Instr) (c : Configuration Config.hash) : (acceptEffect i c).seq ≠ .idle := by
  cases i <;> nofun

/-- A tick does not lead to Idle (44_sequencer.md R130). -/
theorem advancePull_ne_idle (op : PullOp) (cnt : Nat) (acc maxr : Word) : advancePull op cnt acc maxr ≠ .idle := by
  rcases Nat.lt_or_ge 1 cnt with hmore | hlast
  · rw [advancePull_more op acc maxr hmore]
    nofun
  · rw [advancePull_last op acc maxr hlast]
    rcases finishPull_cases op acc maxr with ⟨_, hresp⟩ | ⟨-, -, hretry⟩
    · rw [hresp]; nofun
    · rw [hretry]; nofun

theorem Configuration.tick_seq_ne_idle {H : Hash} {c : Configuration H} (h : c.seq ≠ .idle) : c.tick.seq ≠ .idle := by
  cases hs : c.seq with
  | idle => exact absurd hs h
  | busy op cnt acc maxr => rw [Configuration.tick_busy_seq hs]; exact advancePull_ne_idle _ _ _ _
  | resp data err => rw [Configuration.tick_resp hs]; exact h

theorem Configuration.ticks_seq_ne_idle {H : Hash} {c : Configuration H} (h : c.seq ≠ .idle) (n : Nat) :
    (c.ticks n).seq ≠ .idle := by
  induction n generalizing c with
  | zero => exact h
  | succ n ih => exact ih (Configuration.tick_seq_ne_idle h)

section serves
variable {g : Gen Config.hash} {ws : List CommandWord} {rs : List ResponseWord} {c : Configuration Config.hash}

/-- An Idle block has answered all its words. -/
theorem Serves.answers_of_idle (h : Serves g ws rs c) (hc : c.seq = .idle) :
    Answers Config.hash Config.rngSeed g ws rs c.gen := by
  cases h with
  | idle _ hans => exact hans
  | working ws' w c' k _ _ hk =>
    subst hk
    exact absurd hc (Configuration.ticks_seq_ne_idle (acceptEffect_seq_ne_idle _ _) k)

/-- Outside Idle all words but the last are answered. -/
theorem Serves.answers_of_not_idle (h : Serves g ws rs c) (hc : c.seq ≠ .idle) :
    ∃ ws' w g', ws = ws' ++ [w] ∧ Answers Config.hash Config.rngSeed g ws' rs g' := by
  cases h with
  | idle hidle _ => exact absurd hidle hc
  | working ws' w c' k hwords hans _ => exact ⟨ws', w, _, hwords, hans⟩

/-- The response that a block offers is the operation level's answer to the last word. -/
theorem Serves.answers_of_resp {data : Word} {err : Bool} (h : Serves g ws rs c) (hc : c.seq = .resp data err) :
    Answers Config.hash Config.rngSeed g ws (rs ++ [responseWord data err]) c.gen := by
  cases h with
  | idle hidle _ => rw [hc] at hidle; cases hidle
  | working ws' w c' k hwords hans hk =>
    subst hwords hk
    obtain ⟨fuel, r, hop, hend⟩ := operate_of_ticks_resp hc
    rw [hend] at hc ⊢
    cases hc
    exact hans.snoc hop

/-- A reset-free step keeps the invariant, with the word it accepts and the response it delivers. -/
theorem Serves.step {s t : State} (h : Serves g ws rs s.toConfiguration) (hr : s.pins.rst = false)
    (hstep : step s = .next t) : Serves g (ws ++ s.acceptedNow) (rs ++ s.deliveredNow) t.toConfiguration := by
  cases hs : s.seq with
  | idle =>
    have hans := h.answers_of_idle hs
    obtain ⟨hdel, ⟨hnow, hc⟩ | ⟨w, hnow, hc⟩⟩ := step_idle_cases hs hr hstep
    · rw [hnow, hdel, hc, List.append_nil, List.append_nil]
      exact h
    · rw [hnow, hdel, hc, List.append_nil]
      exact .working ws w s.toConfiguration 0 rfl hans rfl
  | busy op cnt acc maxr =>
    have hnot : s.seq ≠ .idle := by rw [hs]; nofun
    cases (step_of_busy hr hs).symm.trans hstep
    rw [State.acceptedNow_of_not_idle hnot, State.deliveredNow_of_not_resp (by simp [hs]), List.append_nil,
      List.append_nil]
    cases h with
    | idle hidle _ => exact absurd hidle hnot
    | working ws' w c' k hwords hans hk =>
      refine .working ws' w c' (k + 1) hwords hans ?_
      rw [Configuration.ticks_succ_last, ← hk]
      rfl
  | resp data err =>
    rw [State.acceptedNow_of_not_idle (by rw [hs]; nofun), List.append_nil]
    obtain ⟨hdel, hc⟩ | ⟨hdel, hc⟩ := step_resp_cases hs hr hstep
    · rw [hdel, hc, List.append_nil]
      exact h
    · rw [hdel, hc]
      exact .idle rfl (h.answers_of_resp hs)

end serves

/-- Every run without reset from Idle has the invariant. -/
theorem serves_of_runs {s t : State} {n : Nat} (hs : s.seq = .idle) (hr : s.noReset n = true) (hrun : Runs n s t) :
    Serves s.gen (acceptedWords n s) (deliveredWords n s) t.toConfiguration := by
  induction n generalizing t with
  | zero =>
    cases runs_zero.mp hrun
    exact .idle hs (.nil _)
  | succ n ih =>
    obtain ⟨u, hu, hstep⟩ := runs_succ_last.mp hrun
    rw [noReset_succ_last hu, Bool.and_eq_true, Bool.not_eq_true'] at hr
    rw [acceptedWords_succ_last hu hstep, deliveredWords_succ_last hu hstep]
    exact (ih hr.1 hu).step hr.2 hstep

/-! ### The statements about whole runs -/

/-- Settles O46: the invariant of a run, read in each phase. -/
theorem responsesAreOperationAnswers : Obligations.ResponsesAreOperationAnswers := by
  unfold Obligations.ResponsesAreOperationAnswers
  intro s t n hs hr hrun
  have h := serves_of_runs hs hr hrun
  exact ⟨h.answers_of_idle, fun data err ht => h.answers_of_resp ht,
    fun op cnt acc maxr ht => h.answers_of_not_idle (by rw [ht]; nofun)⟩

/-- Settles O45: each answered word has one response. -/
theorem oneResponsePerCommand : Obligations.OneResponsePerCommand := by
  unfold Obligations.OneResponsePerCommand
  intro s t n hs hr hrun
  have h := serves_of_runs hs hr hrun
  refine ⟨fun ht => (h.answers_of_idle ht).length_eq, fun ht => ?_⟩
  obtain ⟨ws, w, g, hwords, hans⟩ := h.answers_of_not_idle ht
  rw [hwords, List.length_append, hans.length_eq, List.length_singleton]

/-- Whatever a run has delivered answers a beginning of what it has accepted. -/
theorem Serves.exists_answers {g : Gen Config.hash} {ws : List CommandWord} {rs : List ResponseWord}
    {c : Configuration Config.hash} (h : Serves g ws rs c) :
    ∃ ws' g', ws' <+: ws ∧ Answers Config.hash Config.rngSeed g ws' rs g' := by
  cases h with
  | idle _ hans => exact ⟨ws, c.gen, List.prefix_rfl, hans⟩
  | working ws' w c' k hwords hans _ => exact ⟨ws', c'.gen, ⟨[w], hwords.symm⟩, hans⟩

/-- Settles O47: both runs have delivered the answers to beginnings of the same words, one of which begins the other. -/
theorem responsesIndependentOfTiming : Obligations.ResponsesIndependentOfTiming := by
  unfold Obligations.ResponsesIndependentOfTiming
  intro s s' t t' n n' hs hs' hgen hr hr' hrun hrun' hwords
  have hgen' : s'.gen = s.gen := hgen
  have h := serves_of_runs hs hr hrun
  have h' := serves_of_runs hs' hr' hrun'
  rw [hgen', ← hwords] at h'
  refine ⟨?_, fun ht ht' => (h.answers_of_idle ht).unique (h'.answers_of_idle ht')⟩
  obtain ⟨ws, _, hws, hans⟩ := h.exists_answers
  obtain ⟨ws', _, hws', hans'⟩ := h'.exists_answers
  rcases List.prefix_or_prefix_of_prefix hws hws' with ⟨_, rfl⟩ | ⟨_, rfl⟩
  · obtain ⟨later, hlater, -⟩ := hans.split hans'
    exact .inl ⟨later, hlater.symm⟩
  · obtain ⟨later, hlater, -⟩ := hans'.split hans
    exact .inr ⟨later, hlater.symm⟩

end Sys2Proof.Machine
end
